-- ==== Sys2Proof/Word.lean ====
section
/-! DEFINITION. The words of huffman_core (00_scope.md rules R7 to R10): bytes, 32-bit register words, 40-bit tree
weights, and bit strings. -/

namespace Sys2Proof

/-- A byte: a symbol of the alphabet, or one byte of a buffer (R7: symbol width 8 bits). -/
abbrev Byte := BitVec 8

/-- A host register word, a frequency, or `byte_count` (R7: 32 bits). -/
abbrev Word := BitVec 32

/-- A tree node weight (R7, R109: 40 bits unsigned). -/
abbrev Weight := BitVec 40

/-- A bit string, position 0 first (R10); `true` is the bit 1. -/
abbrev Bits := List Bool

end Sys2Proof
end

