-- ==== Sys2Proof/Config.lean ====
section
/-! DEFINITION. What an implementation of huffman_core fixes (00_scope.md rule R6, 20_memory.md rule R61) and the
values the spec leaves unspecified (93_implementation_defined.md, treatment "any value"). -/

namespace Sys2Proof.Config

/-- The two parameters of the block (R6): the sizes in bytes of IN and OUT. The machine's state carries them, and no
step changes them, so that every statement holds for every pair of parameters (log entry 1). -/
structure Caps where
  inCap : Nat
  outCap : Nat
deriving DecidableEq, Repr

/-- R6: each of IN_CAP and OUT_CAP is from 1 to 2^32 - 1. -/
abbrev Caps.Legal (c : Caps) : Prop :=
  1 ≤ c.inCap ∧ c.inCap ≤ 2 ^ 32 - 1 ∧ 1 ≤ c.outCap ∧ c.outCap ≤ 2 ^ 32 - 1

/-- Where the platform places the register space; open (R61), and no behaviour depends on it (log entry 20). -/
opaque regBase : Nat

/-- Where the platform places IN; open (R61, log entry 20). -/
opaque inBase : Nat

/-- Where the platform places OUT; open (R61, log entry 20). -/
opaque outBase : Nat

/-- FREE VALUE (log entry 4): an unspecified word; first argument: the number of the draw; second: the register
offset it is drawn for. Nothing is known of it (10_state.md rules R39, R41, R42). -/
opaque freeWord : Nat → Nat → Word

/-- FREE VALUE (log entry 4): an unspecified buffer byte; first argument: the number of the draw; second: the offset
in the buffer (10_state.md rules R35, R36, R41, R42). -/
opaque freeByte : Nat → Nat → Byte

end Sys2Proof.Config
end

