-- ==== Sys2Proof/Syntax.lean ====
section
/-! DEFINITION. The commands of huffman_core (30_encoding.md rules R70 and R71, opcode_table.json) and the host
actions through which a command reaches the block (30_encoding.md rules R83 and R84). -/

namespace Sys2Proof

/-- The commands: one constructor per row of opcode_table.json. A command has no operand fields: its operands are the
state it reads (R70). -/
inductive Instr where
  /-- CMD = 0 (R96) -/
  | nop
  /-- CMD = 1 (R105) -/
  | encode
  /-- CMD = 2 (R130) -/
  | decode
  /-- CMD = 3, reserved: raises IllegalCommand (R97) -/
  | reserved
deriving DecidableEq, Repr

/-- The two agents (10_state.md rule R20). -/
inductive Agent where
  | host
  | block
deriving DecidableEq, Repr

/-- One step of HOST (R83), with the polling loop of R84, the OUT write that R52 says is ignored, and the reset input
of R170. Register accesses of another width than 32 bits, and buffer accesses wider than a byte, have no constructor:
the model has no step for them (R51, R52). -/
inductive HostAction where
  /-- `wr.reg OFF, WORD` -/
  | wrReg (off : Word) (word : Word)
  /-- `rd.reg OFF` -/
  | rdReg (off : Word)
  /-- `wr.in OFF, BYTE` -/
  | wrIn (off : Word) (byte : Byte)
  /-- `rd.in OFF` -/
  | rdIn (off : Word)
  /-- `rd.out OFF` -/
  | rdOut (off : Word)
  /-- a host write to OUT, ignored (R52, R60) -/
  | wrOut (off : Word) (byte : Byte)
  /-- `poll` (R84): `rd.reg STATUS`, repeated while it reads BUSY -/
  | poll
  /-- the host asserts the reset input (R170) -/
  | reset
deriving DecidableEq, Repr

/-- `load.in OFF, b0 b1 ... bk` (R84). -/
def HostAction.loadIn : Word → List Byte → List HostAction
  | _, [] => []
  | off, b :: bs => .wrIn off b :: loadIn (off + 1) bs

/-- `dump.out k` (R84). -/
def HostAction.dumpOut (k : Nat) : List HostAction :=
  (List.range k).map fun i => .rdOut (BitVec.ofNat 32 i)

end Sys2Proof
end

