-- ==== Sys2Proof/Machine/State.lean ====
section
/-! DEFINITION. The state of huffman_core (10_state.md, rule R45: the architectural state is exactly the tuple listed
there), with the host's side of the interface, as plain data. -/

namespace Sys2Proof.Machine

/-- STATUS.STATE (R24). -/
inductive Phase where
  | idle
  | busy
  | done
  | error
deriving DecidableEq, Repr

/-- The errors of 60_exceptions.md rule R150. Code 0 is "no error", and codes 7 to 15 are never produced, so neither
has a constructor. -/
inductive ErrorCode where
  | emptyAlphabet
  | malformedContainer
  | invalidBitPath
  | unrepresentableAlphabetSize
  | capacityExceeded
  | illegalCommand
deriving DecidableEq, Repr

/-- What the command latch CMDL can hold (R39). -/
inductive Command where
  | encode
  | decode
deriving DecidableEq, Repr

/-- A value HOST read: a register word, or a buffer byte (R83). -/
inductive ReadValue where
  | word (w : Word)
  | byte (b : Byte)
deriving DecidableEq, Repr

/-- A byte buffer, IN or OUT (R35, R36). `cells` lists the bytes whose value is known, at strictly rising offsets
(`Memory.wf`). A byte that is not listed is unspecified: it holds the free value of the draw `fill` at its offset, so
it reads the same until it is written (log entry 3). -/
structure Memory where
  cells : List Host.Cell
  fill : Nat
deriving DecidableEq, Repr

/-- The frequency table, one 32-bit count per symbol (R7, R32). -/
abbrev FreqTable := Vector Word 256

/-- The code lengths, one byte per symbol (R33). -/
abbrev DepthTable := Vector Byte 256

/-- The machine. -/
structure State where
  /-- IN_CAP and OUT_CAP (R6): parameters, never changed by a step (log entry 1) -/
  caps : Config.Caps
  /-- STATUS.STATE (R24) -/
  phase : Phase
  /-- STATUS.ERR (R25); `none` is code 0 -/
  err : Option ErrorCode
  /-- IN_LEN (R27) -/
  inLen : Word
  /-- OUT_LEN (R28) -/
  outLen : Word
  /-- SYM_COUNT[7:0] (R29) -/
  symCount : Byte
  /-- BYTE_COUNT (R30) -/
  byteCount : Word
  /-- MODULO[2:0] (R31) -/
  modulo : BitVec 3
  /-- FREQ[0..255] (R32) -/
  freq : FreqTable
  /-- CODE_LEN[0..255], bits [7:0] (R33) -/
  codeLen : DepthTable
  /-- IN (R35) -/
  inBuf : Memory
  /-- OUT (R36) -/
  outBuf : Memory
  /-- CMDL (R39) -/
  cmdl : Command
  /-- the model's sticky fault mark HAZARD (R46) -/
  hazard : Bool
  /-- the model's own: how many free values have been drawn (log entry 4) -/
  draws : Nat
  /-- the model's own: HOST's actions still to come, in its program order (R58, log entry 8) -/
  pending : List HostAction
  /-- the model's own: which agent moves next while BUSY; BLOCK when the list is used up (R20, log entry 7) -/
  turns : List Agent
  /-- the model's own: the values HOST's reads returned, oldest first (R83, log entry 8) -/
  seen : List ReadValue
deriving DecidableEq, Repr

/-- What stops the machine. -/
inductive Fault where
  /-- Raised by the completion step of ENCODE (`encodeBytes`) when the translator finds no code for an input byte.
  Unreachable (R117; 93_implementation_defined.md row 4). SAFE: the model stops where no hardware run exists. -/
  | noCodeForByte
deriving DecidableEq, Repr

/-- What has no meaning in the model. -/
inductive Refusal where
  /-- Raised by an arm of `exec` whose command has no meaning yet; no arm does. SAFE. -/
  | notModelled (mnemonic : String)
  /-- Raised by `hostStep` for a register access whose offset is not a multiple of 4 (R51, R178). SAFE: the model has
  no run there. -/
  | regMisaligned
  /-- Raised by `hostStep` for a register access beyond 0xFFF (R50, R178). SAFE. -/
  | regOutOfSpace
  /-- Raised by `hostStep` for an access to IN at an offset >= IN_CAP (R52, R178). SAFE. -/
  | inOutOfRange
  /-- Raised by `hostStep` for an access to OUT at an offset >= OUT_CAP (R52, R178). SAFE. -/
  | outOutOfRange
deriving DecidableEq, Repr

/-- The machine right after reset (R170), with nothing asked of it yet. The registers are the spec's values. IN and
OUT are unspecified: each byte is a free value (draws 0 and 1). The parameters (log entry 1), CMDL (log entry 2) and
`draws` (log entry 4) are values the spec does not give. -/
def State.reset : State where
  caps := { inCap := 4096, outCap := 4096 }
  phase := .idle
  err := none
  inLen := 0#32
  outLen := 0#32
  symCount := 0#8
  byteCount := 0#32
  modulo := 0#3
  freq := Vector.replicate 256 0#32
  codeLen := Vector.replicate 256 0#8
  inBuf := { cells := [], fill := 0 }
  outBuf := { cells := [], fill := 1 }
  cmdl := .encode
  hazard := false
  draws := 2
  pending := []
  turns := []
  seen := []

end Sys2Proof.Machine
end

