-- ==== Sys2Proof/Machine/Operands.lean ====
section
/-! DEFINITION. The operands of the commands: the 4-byte little-endian fields of a container (00_scope.md rule R11,
20_memory.md rule R54, 30_encoding.md rule R79), the bits of a payload byte (20_memory.md rule R55, 30_encoding.md
rule R80), and the entries of the frequency table. -/

namespace Sys2Proof.Machine

/-- `u32le(v)`: the least significant byte first (R11). -/
def u32le (v : Word) : List Byte :=
  [v.extractLsb' 0 8, v.extractLsb' 8 8, v.extractLsb' 16 8, v.extractLsb' 24 8]

/-- `rd_u32le(buf, o)` of the four bytes at o, o + 1, o + 2, o + 3 (R11). -/
def rdU32le (b0 b1 b2 b3 : Byte) : Word :=
  BitVec.ofNat 32 (b0.toNat + 256 * b1.toNat + 65536 * b2.toNat + 16777216 * b3.toNat)

/-- The value of bits placed from bit `k` of a byte downwards, first bit highest (R55, R118). -/
def bitsValue : Nat → Bits → Nat
  | _, [] => 0
  | k, b :: bs => (if b then 2 ^ k else 0) + bitsValue (k - 1) bs

/-- One payload byte from at most 8 bits, left-justified, with the padding bits 0 (R80, R118). -/
def packByte (bs : Bits) : Byte := BitVec.ofNat 8 (bitsValue 7 bs)

/-- The 8 bits of a payload byte, `v[7]` first (R134). -/
def unpackByte (v : Byte) : Bits :=
  [v.getLsbD 7, v.getLsbD 6, v.getLsbD 5, v.getLsbD 4, v.getLsbD 3, v.getLsbD 2, v.getLsbD 1, v.getLsbD 0]

/-- The 256 symbols in ascending order. -/
def allSymbols : List Byte := (List.range 256).map (BitVec.ofNat 8)

/-- A table with one entry for each symbol: `f s` for the symbol `s`. -/
def tableOf {α : Type} (f : Byte → α) : Vector α 256 := ⟨(allSymbols.map f).toArray, by simp [allSymbols]⟩

/-- `F[s]`: the frequency of a symbol. -/
def FreqTable.at (F : FreqTable) (s : Byte) : Word := F[s.toNat]'s.isLt

/-- `F[s] <- f`. -/
def FreqTable.put (F : FreqTable) (s : Byte) (f : Word) : FreqTable := F.set s.toNat f s.isLt

/-- `F[0] + F[1] + ... + F[255]`, a mathematical sum (R107, R137). -/
def freqSum (F : FreqTable) : Nat := (F.toList.map fun f => f.toNat).sum

/-- The alphabet (R108): the symbols with a frequency above 0, in ascending order. Each symbol is paired with its
frequency, and the pairs with a frequency above 0 are kept. -/
def alphabet (F : FreqTable) : List Byte := ((allSymbols.zip F.toList).filter fun p => p.2 != 0#32).map Prod.fst

end Sys2Proof.Machine
end

