-- ==== Sys2Proof/Machine/Huffman.lean ====
section
/-! DEFINITION. The tree builder and the code generator, shared by ENCODE and DECODE (41_encoder.md rules R108 to R116,
42_decoder.md rule R133). -/

namespace Sys2Proof.Machine

/-- The tree of a command (R13, R37). Each node carries its index in the node arena, which is its sequence number
(R110); a child is held by its parent ("exclusively owned by the parent"), where the arena holds the child's index
(log entry 11). -/
inductive Tree where
  | leaf (idx : Nat) (sym : Byte) (w : Weight)
  | internal (idx : Nat) (w : Weight) (left right : Tree)
deriving DecidableEq, Repr

/-- The node's arena index (R37, R110). -/
def Tree.idx : Tree → Nat
  | .leaf i _ _ => i
  | .internal i _ _ _ => i

/-- `w(k)` (R13). -/
def Tree.weight : Tree → Weight
  | .leaf _ _ w => w
  | .internal _ w _ _ => w

/-- An entry of the node arena (R37). -/
inductive Node where
  | leaf (sym : Byte) (w : Weight)
  | internal (w : Weight) (left right : Nat)
deriving DecidableEq, Repr

/-- `w(k)` of an arena entry (R13). -/
def Node.weight : Node → Weight
  | .leaf _ w => w
  | .internal w _ _ => w

/-- The arena entries a tree uses, each with its index (R37, R113). -/
def Tree.arena : Tree → List (Nat × Node)
  | .leaf i s w => [(i, .leaf s w)]
  | .internal i w l r => (i, .internal w l.idx r.idx) :: (l.arena ++ r.arena)

/-- The symbols of the leaves, left to right. -/
def Tree.symbols : Tree → List Byte
  | .leaf _ s _ => [s]
  | .internal _ _ l r => l.symbols ++ r.symbols

/-- The priority order (R111): by weight, then by sequence number. -/
def Tree.before (x y : Tree) : Bool :=
  x.weight.toNat < y.weight.toNat || (x.weight.toNat == y.weight.toNat && x.idx < y.idx)

/-- `argmin over k in Q of (w(k), k)` and `Q \ {x}` (R111), for the set of nodes `t` and `q`. -/
def popMin (t : Tree) : List Tree → Tree × List Tree
  | [] => (t, [])
  | u :: us =>
    let (m, rest) := popMin u us
    if t.before m then (t, m :: rest) else (m, t :: rest)

/-- The merging loop (R111) on the set of nodes `t` and `q`; `next` is the next free arena index. Each turn takes one
node off the set, so the loop ends after as many turns as `q` has nodes (R112: n - 1 turns). The first node extracted
becomes the left child, the second the right child. -/
def mergeLoop : Nat → Nat → Tree → List Tree → Tree
  | 0, _, t, _ => t
  | k + 1, next, t, q =>
    match popMin t q with
    | (x, []) => x
    | (x, v :: vs) =>
      match popMin v vs with
      | (y, rest) => mergeLoop k (next + 1) (.internal next (x.weight + y.weight) x y) rest

/-- The leaf of a symbol at arena index `k` (R110). -/
def mkLeaf (F : FreqTable) (k : Nat) (s : Byte) : Tree := .leaf k s ((FreqTable.at F s).zeroExtend 40)

/-- The leaves of the symbols `A`, from arena index `k` on (R110). -/
def leavesFrom (F : FreqTable) : Nat → List Byte → List Tree
  | _, [] => []
  | k, s :: ss => mkLeaf F k s :: leavesFrom F (k + 1) ss

/-- `BuildTree(A, F)` for the alphabet `a :: as` (R110 to R112). An empty alphabet has no tree (R112), so there is no
case for it. -/
def buildTree (F : FreqTable) (a : Byte) (as : List Byte) : Tree :=
  mergeLoop as.length (as.length + 1) (mkLeaf F 0 a) (leavesFrom F 1 as)

/-- The code table (R38): the symbols with a code, each with its code; a symbol that is not listed has no entry. -/
abbrev CodeTable := List (Byte × Bits)

/-- `Visit(k, p)` (R115): "0" to the left, "1" to the right. -/
def Tree.visit : Tree → Bits → CodeTable
  | .leaf _ s _, p => [(s, p)]
  | .internal _ _ l r, p => l.visit (p ++ [false]) ++ r.visit (p ++ [true])

/-- `CodeGen(root)` (R115). -/
def codeGen (root : Tree) : CodeTable := root.visit []

/-- `CODE[s]` (R38). -/
def codeOf (s : Byte) : CodeTable → Option Bits
  | [] => none
  | (t, c) :: rest => if t = s then some c else codeOf s rest

/-- `depth[s]` for every symbol (R105, R115, R130): the length of its code, and 0 without one. -/
def depthTable (tbl : CodeTable) : DepthTable :=
  tableOf fun s =>
    match codeOf s tbl with
    | some c => BitVec.ofNat 8 c.length
    | none => 0#8

end Sys2Proof.Machine
end

