-- ==== Sys2Proof/Machine/Flags.lean ====
section
/-! DEFINITION. The status word and the only two flags of the block, STATUS.STATE and STATUS.ERR (10_state.md rules
R24 to R26 and R43, 30_encoding.md rule R73, 60_exceptions.md rule R150). -/

namespace Sys2Proof.Machine

/-- The value of STATUS[1:0] (R24). -/
def phaseBits : Phase → Nat
  | .idle => 0
  | .busy => 1
  | .done => 2
  | .error => 3

/-- The value of STATUS[7:4] (R25, R150). -/
def errBits : Option ErrorCode → Nat
  | none => 0
  | some .emptyAlphabet => 1
  | some .malformedContainer => 2
  | some .invalidBitPath => 3
  | some .unrepresentableAlphabetSize => 4
  | some .capacityExceeded => 5
  | some .illegalCommand => 6

/-- The STATUS word: `(ERR << 4) | STATE` (R26, R73). -/
def statusWord (s : State) : Word := BitVec.ofNat 32 (errBits s.err) <<< 4 ||| BitVec.ofNat 32 (phaseBits s.phase)

/-- STATE <- BUSY with ERR <- 0 (R95). -/
def setBusy (s : State) : State := { s with phase := .busy, err := none }

/-- STATE <- DONE with ERR <- 0 (R98). -/
def setDone (s : State) : State := { s with phase := .done, err := none }

/-- STATE <- ERROR with ERR <- code(e) (R97, R153). -/
def setError (e : ErrorCode) (s : State) : State := { s with phase := .error, err := some e }

end Sys2Proof.Machine
end

