-- ==== Sys2Proof/WellFormed.lean ====
section
/-! DEFINITION. Well-formed commands and host actions. Every command is well-formed: it has no operands (R70). A host
action is well-formed when it is inside the interface (20_memory.md rules R51 and R52, 70_reset_and_hazards.md rule
R178). -/

namespace Sys2Proof

/-- A command has no operand that could be ill-formed (R70). -/
def Instr.wellFormed : Instr → Bool
  | .nop => true
  | .encode => true
  | .decode => true
  | .reserved => true

/-- R50, R51: a register offset is a multiple of 4 inside the 4096-byte register space. -/
def regOffsetOk (off : Word) : Bool := off.toNat < 4096 && off.toNat % 4 == 0

/-- R178: the accesses the host keeps to. -/
def HostAction.wellFormed (caps : Config.Caps) : HostAction → Bool
  | .wrReg off _ => regOffsetOk off
  | .rdReg off => regOffsetOk off
  | .wrIn off _ => off.toNat < caps.inCap
  | .rdIn off => off.toNat < caps.inCap
  | .rdOut off => off.toNat < caps.outCap
  | .wrOut off _ => off.toNat < caps.outCap
  | .poll => true
  | .reset => true

end Sys2Proof
end

