-- ==== Sys2Proof/Machine/Ops.lean ====
section
/-! DEFINITION. The named operations over the buffers, the registers and the sequencer: byte reads and writes of IN and
OUT (20_memory.md), the register file as the host reaches it (10_state.md rules R22 to R34), latching a command
(40_command.md rule R95), the two ends of a command (40_command.md rule R98, 60_exceptions.md rule R153), the reset input
(70_reset_and_hazards.md rule R170), and which agent moves next (10_state.md rule R20). -/

namespace Sys2Proof.Machine

/-! ### Buffers -/

/-- The known value at offset `k`, if there is one. -/
def lookupCell (k : Nat) : List Host.Cell → Option Byte
  | [] => none
  | (a, v) :: cs => if a = k then some v else lookupCell k cs

/-- The cells after the byte at offset `k` becomes `v`; offsets stay strictly rising. -/
def insertCell (k : Nat) (v : Byte) : List Host.Cell → List Host.Cell
  | [] => [(k, v)]
  | (a, w) :: cs =>
    if k < a then (k, v) :: (a, w) :: cs
    else if k = a then (k, v) :: cs
    else (a, w) :: insertCell k v cs

/-- The canonical form: offsets strictly rising. An unlisted byte has no known value, so no entry can equal it. -/
abbrev Memory.wf (m : Memory) : Prop := m.cells.Pairwise fun x y => x.1 < y.1

/-- Every listed byte lies inside a buffer of `cap` bytes (R50). -/
abbrev Memory.within (m : Memory) (cap : Nat) : Prop := ∀ c ∈ m.cells, c.1 < cap

/-- `MemRead(space, k, 1)` (R12): the known value, or the free value of the buffer's draw. -/
def Memory.read (m : Memory) (k : Nat) : Byte :=
  match lookupCell k m.cells with
  | some v => v
  | none => Config.freeByte m.fill k

/-- `MemWrite(space, k, 1, v)` (R12). -/
def Memory.write (m : Memory) (k : Nat) (v : Byte) : Memory := { m with cells := insertCell k v m.cells }

/-- The bytes at offsets 0 to n - 1. -/
def Memory.bytes (m : Memory) (n : Nat) : List Byte := (List.range n).map m.read

/-- The cells that hold `bs` from offset `k` on. -/
def cellsFrom : Nat → List Byte → List Host.Cell
  | _, [] => []
  | k, b :: bs => (k, b) :: cellsFrom (k + 1) bs

/-- R98: `for k in 0..len(bs)-1: MemWrite(OUT, k, 1, bs{k})`, all at once; the other bytes stay (R36). -/
def Memory.storePrefix (m : Memory) (bs : List Byte) : Memory :=
  { m with cells := cellsFrom 0 bs ++ m.cells.filter fun c => bs.length ≤ c.1 }

/-- A buffer whose every byte is unspecified, drawn as number `d` (R42, R153, R170). -/
def Memory.unspecified (d : Nat) : Memory := { cells := [], fill := d }

/-! ### Registers -/

/-- The registers of the register space (R22). -/
inductive Reg where
  | ctrl
  | status
  | inLen
  | outLen
  | symCount
  | byteCount
  | modulo
  | freq (s : Byte)
  | codeLen (s : Byte)
  | reserved
deriving DecidableEq, Repr

/-- The register at an offset (R22); every offset that is not listed there is reserved (R34). -/
def regOf (off : Word) : Reg :=
  let o := off.toNat
  if o = 0x000 then .ctrl
  else if o = 0x004 then .status
  else if o = 0x008 then .inLen
  else if o = 0x00C then .outLen
  else if o = 0x010 then .symCount
  else if o = 0x014 then .byteCount
  else if o = 0x018 then .modulo
  else if 0x400 ≤ o ∧ o ≤ 0x7FC then .freq (BitVec.ofNat 8 ((o - 0x400) / 4))
  else if 0x800 ≤ o ∧ o ≤ 0xBFC then .codeLen (BitVec.ofNat 8 ((o - 0x800) / 4))
  else .reserved

/-- The registers whose reads are unspecified while BUSY (R41). -/
def Reg.isResult : Reg → Bool
  | .ctrl => false
  | .status => false
  | .inLen => false
  | .outLen => true
  | .symCount => true
  | .byteCount => true
  | .modulo => true
  | .freq _ => true
  | .codeLen _ => true
  | .reserved => false

/-- The word a register holds; the bits above the width used read 0 (R22 to R34). -/
def regValue (s : State) : Reg → Word
  | .ctrl => 0#32
  | .status => statusWord s
  | .inLen => s.inLen
  | .outLen => s.outLen
  | .symCount => s.symCount.zeroExtend 32
  | .byteCount => s.byteCount
  | .modulo => s.modulo.zeroExtend 32
  | .freq k => s.freq[k.toNat]'k.isLt
  | .codeLen k => (s.codeLen[k.toNat]'k.isLt).zeroExtend 32
  | .reserved => 0#32

/-! ### What HOST does to the state -/

/-- HOST has read a value (R83). A read changes no state of the block (R60). -/
def State.see (s : State) (v : ReadValue) : State := { s with seen := s.seen ++ [v] }

/-- One free value has been drawn (log entry 4). -/
def State.drawn (s : State) : State := { s with draws := s.draws + 1 }

/-- R46, R176: a host write to IN or IN_LEN while BUSY sets the sticky mark. -/
def State.markHazard (s : State) : State := { s with hazard := s.hazard || s.phase == .busy }

/-- Host read of a register: while BUSY a result register gives a value drawn for this read (R41, log entry 5). -/
def hostReadReg (off : Word) (s : State) : State :=
  if s.phase = .busy ∧ (regOf off).isResult = true then
    (s.see (.word (Config.freeWord s.draws off.toNat))).drawn
  else s.see (.word (regValue s (regOf off)))

/-- Host read of an IN byte: its content, in every state (R41, R176). -/
def hostReadIn (off : Word) (s : State) : State := s.see (.byte (s.inBuf.read off.toNat))

/-- Host read of an OUT byte: while BUSY a value drawn for this read (R41). -/
def hostReadOut (off : Word) (s : State) : State :=
  if s.phase = .busy then (s.see (.byte (Config.freeByte s.draws off.toNat))).drawn
  else s.see (.byte (s.outBuf.read off.toNat))

/-- Host write of an IN byte (R35, R176). -/
def hostWriteIn (off : Word) (b : Byte) (s : State) : State :=
  { s.markHazard with inBuf := s.inBuf.write off.toNat b }

/-- Host write of IN_LEN (R27, R176). -/
def hostWriteInLen (w : Word) (s : State) : State := { s.markHazard with inLen := w }

/-! ### Commands -/

/-- R95: take a command, unless one is in flight, in which case the write is ignored. -/
def latchCommand (c : Command) (s : State) : State :=
  if s.phase = .busy then s else setBusy { s with cmdl := c }

/-- What a completed command leaves (R98). -/
structure Result where
  /-- the bytes for OUT -/
  out : List Byte
  /-- n, the alphabet size -/
  n : Byte
  byteCount : Word
  modulo : BitVec 3
  /-- F -/
  freq : FreqTable
  depth : DepthTable
deriving DecidableEq, Repr

/-- How Encode or Decode ends: a result, an error of R150, or a model fault. -/
inductive CommandEnd where
  | ok (r : Result)
  | err (e : ErrorCode)
  | fault (f : Fault)
deriving DecidableEq, Repr

/-- R98, the successful completion. -/
def finishCommand (r : Result) (s : State) : State :=
  setDone { s with
    outBuf := s.outBuf.storePrefix r.out
    outLen := BitVec.ofNat 32 r.out.length
    symCount := r.n
    byteCount := r.byteCount
    modulo := r.modulo
    freq := r.freq
    codeLen := r.depth }

/-- R153, the error completion, the block's way of TAKING AN EXCEPTION: STATE, ERR and OUT_LEN are written, every other
result is unspecified, drawn once here (log entries 4 and 6); IN and IN_LEN stay. There is no return from it (R155). -/
def errorCompletion (e : ErrorCode) (s : State) : State :=
  setError e { s with
    outBuf := Memory.unspecified s.draws
    outLen := 0#32
    symCount := (Config.freeWord s.draws 0x010).truncate 8
    byteCount := Config.freeWord s.draws 0x014
    modulo := (Config.freeWord s.draws 0x018).truncate 3
    freq := tableOf fun k => Config.freeWord s.draws (0x400 + 4 * k.toNat)
    codeLen := tableOf fun k => (Config.freeWord s.draws (0x800 + 4 * k.toNat)).truncate 8
    draws := s.draws + 1 }

/-- A free command, drawn as number `d`: what CMDL holds after the reset input (R39, R170, log entry 18). -/
def freeCommand (d : Nat) : Command := if (Config.freeWord d 0x000).getLsbD 0 then .decode else .encode

/-- R170, R171: the reset input, in any state. IN and OUT are unspecified after it, and so is CMDL. The parameters and
HOST's own side stay. -/
def resetInput (s : State) : State :=
  { s with
    phase := .idle
    err := none
    inLen := 0#32
    outLen := 0#32
    symCount := 0#8
    byteCount := 0#32
    modulo := 0#3
    freq := Vector.replicate 256 0#32
    codeLen := Vector.replicate 256 0#8
    inBuf := Memory.unspecified s.draws
    outBuf := Memory.unspecified (s.draws + 1)
    cmdl := freeCommand (s.draws + 2)
    hazard := false
    draws := s.draws + 3 }

/-! ### Which agent moves -/

/-- A scheduled step: an action of HOST, the completion step of BLOCK, or nothing to do; with the state in which it is
taken. -/
inductive Move where
  | host (a : HostAction) (s : State)
  | block (s : State)
  | none
deriving DecidableEq, Repr

/-- R20: BLOCK's step is enabled exactly when BUSY. While BUSY, `turns` says who moves, one entry a step, and BLOCK
moves when the entries are used up or HOST has nothing to do (log entry 7). Otherwise HOST moves, if it has an action
left (R163). -/
def schedule (s : State) : Move :=
  if s.phase = .busy then
    match s.turns, s.pending with
    | .host :: ts, a :: as => .host a { s with turns := ts, pending := as }
    | ts, _ => .block { s with turns := ts.tail }
  else
    match s.pending with
    | a :: as => .host a { s with pending := as }
    | [] => .none

end Sys2Proof.Machine
end

