-- ==== Sys2Proof/Machine/Decoder.lean ====
section
/-! DEFINITION. huffman_decoder (42_decoder.md): the frequency table reader, the bitstream reader, the symbol emitter, and
Decode, which runs them in order. -/

namespace Sys2Proof.Machine

/-- What `ReadTable` returns (R131), with the payload bytes in the place of their offset H. -/
structure Table where
  n : Byte
  F : FreqTable
  bc : Word
  md : Byte
  payload : List Byte
deriving DecidableEq, Repr

/-- The `k` pairs at the front of the bytes (R78, R79), put into the table `F`, and the bytes after them; `none` for a
zero frequency, a repeated symbol, or bytes that run out (R132 (c), (d), (e)). -/
def readPairs : Nat → List Byte → FreqTable → Option (FreqTable × List Byte)
  | 0, rest, F => some (F, rest)
  | k + 1, s :: b0 :: b1 :: b2 :: b3 :: rest, F =>
    let f := rdU32le b0 b1 b2 b3
    if f = 0#32 ∨ FreqTable.at F s ≠ 0#32 then none
    else readPairs k rest (FreqTable.put F s f)
  | _ + 1, _, _ => none

/-- PL (R78, R131): the payload length that byte_count and modulo declare, in unbounded arithmetic. -/
def payloadLength (bc md : Nat) : Nat := bc + if md > 0 then 1 else 0

/-- `ReadTable` (R131) on the bytes IN[0..N-1]; `none` is MalformedContainer, for one of R132 (a) to (g). -/
def readTable (bs : List Byte) : Option Table :=
  match bs with
  | [] => none
  | n :: body =>
    if n = 0#8 then none
    else if bs.length < 6 + 5 * n.toNat then none
    else
      match readPairs n.toNat body (Vector.replicate 256 0#32) with
      | some (F, c0 :: c1 :: c2 :: c3 :: md :: payload) =>
        let bc := rdU32le c0 c1 c2 c3
        if md.toNat > 7 then none
        else if bs.length ≠ 6 + 5 * n.toNat + payloadLength bc.toNat md.toNat then none
        else some { n := n, F := F, bc := bc, md := md, payload := payload }
      | _ => none

/-- `Unpack` (R134): the bits of the `bc` full bytes, then the first `md` bits of the partial byte. -/
def unpackBits (payload : List Byte) (bc md : Nat) : Bits :=
  (payload.take bc).flatMap unpackByte ++
    if md > 0 then
      match payload.drop bc with
      | v :: _ => (unpackByte v).take md
      | [] => []
    else []

/-- `Walk` (R136) from the cursor `cur`. `none` is InvalidBitPath: the bits end at an internal node other than the
root, or a bit cannot be resolved to a child (R150; unreachable by R140). -/
def walkFrom (root : Tree) : Tree → Bits → Option (List Byte)
  | cur, [] => if cur.idx = root.idx then some [] else none
  | .leaf _ _ _, _ :: _ => none
  | .internal _ _ l r, b :: bs =>
    match if b then r else l with
    | .leaf _ s _ =>
      match walkFrom root root bs with
      | some rest => some (s :: rest)
      | none => none
    | .internal i w l' r' => walkFrom root (.internal i w l' r') bs

/-- The result of a DECODE that emitted `S` (R130). -/
def decodeResult (t : Table) (root : Tree) (S : List Byte) : Result where
  out := S
  n := t.n
  byteCount := t.bc
  modulo := t.md.truncate 3
  freq := t.F
  depth := depthTable (codeGen root)

/-- EmitSingle (R135) and the OUT capacity check (R130). The length of the output, F[s0], is compared before the bytes
are made. -/
def emitSingle (outCap : Nat) (t : Table) (a : Byte) (root : Tree) : CommandEnd :=
  if t.bc ≠ 0#32 ∨ t.md ≠ 0#8 then .err .malformedContainer
  else if (FreqTable.at t.F a).toNat > outCap then .err .capacityExceeded
  else .ok (decodeResult t root (List.replicate (FreqTable.at t.F a).toNat a))

/-- Walk (R136), CountCheck (R137) and the OUT capacity check (R130). -/
def emitWalk (outCap : Nat) (t : Table) (root : Tree) : CommandEnd :=
  match walkFrom root root (unpackBits t.payload t.bc.toNat t.md.toNat) with
  | none => .err .invalidBitPath
  | some S =>
    if S.length ≠ freqSum t.F then .err .malformedContainer
    else if S.length > outCap then .err .capacityExceeded
    else .ok (decodeResult t root S)

/-- Decode (R130) after its first check, on the bytes IN[0..N-1]. A table without a symbol cannot come out of ReadTable
(R112, R132 (b), log entry 21). -/
def decodeBytes (outCap : Nat) (bs : List Byte) : CommandEnd :=
  match readTable bs with
  | none => .err .malformedContainer
  | some t =>
    match alphabet t.F with
    | [] => .err .malformedContainer
    | a :: as =>
      let root := buildTree t.F a as
      if t.n = 1#8 then emitSingle outCap t a root else emitWalk outCap t root

/-- `Decode(IN, N)` (R130) with `N = IN_LEN`. -/
def runDecode (s : State) : CommandEnd :=
  if s.inLen.toNat > s.caps.inCap then .err .capacityExceeded
  else decodeBytes s.caps.outCap (s.inBuf.bytes s.inLen.toNat)

end Sys2Proof.Machine
end

