-- ==== Sys2Proof/Machine/Encoder.lean ====
section
/-! DEFINITION. huffman_encoder (41_encoder.md): the frequency analyzer, the translator, the bitstream packer, the
container writer, and Encode, which runs them in order. -/

namespace Sys2Proof.Machine

/-- `FreqAnalyze` (R106): the number of occurrences of each symbol. -/
def freqAnalyze (bs : List Byte) : FreqTable := tableOf fun s => BitVec.ofNat 32 (bs.count s)

/-- `Translate` (R117): the codes of the input bytes, in byte order; `none` when a byte has no code. -/
def translateBytes (tbl : CodeTable) : List Byte → Option Bits
  | [] => some []
  | b :: bs =>
    match codeOf b tbl, translateBytes tbl bs with
    | some c, some rest => some (c ++ rest)
    | _, _ => none

/-- The payload of `Pack` (R118): 8 bits a byte, and the bits left over in one partial byte. -/
def packBits : Bits → List Byte
  | b0 :: b1 :: b2 :: b3 :: b4 :: b5 :: b6 :: b7 :: rest =>
    packByte [b0, b1, b2, b3, b4, b5, b6, b7] :: packBits rest
  | [] => []
  | bs => [packByte bs]

/-- The pairs of a container (R119), in the order of `A`. -/
def writePairs (F : FreqTable) (A : List Byte) : List Byte := A.flatMap fun s => s :: u32le (FreqTable.at F s)

/-- `WriteContainer` (R78, R119) for the alphabet `A`, the number of full bytes `bc`, the number of trailing bits `md`
and the payload `P`. -/
def writeContainer (A : List Byte) (F : FreqTable) (bc md : Nat) (P : List Byte) : List Byte :=
  BitVec.ofNat 8 A.length :: writePairs F A ++ u32le (BitVec.ofNat 32 bc) ++ BitVec.ofNat 8 md :: P

/-- Encode (R105) after its first check, on the bytes IN[0..N-1]. An empty alphabet is the empty input (R112). A
byte_count that does not fit its field would make the container longer than any OUT_CAP (R121, log entry 12). -/
def encodeBytes (outCap : Nat) (bs : List Byte) : CommandEnd :=
  if bs.length = 0 then .err .emptyAlphabet
  else
    let F := freqAnalyze bs
    match alphabet F with
    | [] => .err .emptyAlphabet
    | a :: as =>
      if (a :: as).length = 256 then .err .unrepresentableAlphabetSize
      else
        let tbl := codeGen (buildTree F a as)
        match translateBytes tbl bs with
        | none => .fault .noCodeForByte
        | some bits =>
          let bc := bits.length / 8
          let md := bits.length % 8
          let C := writeContainer (a :: as) F bc md (packBits bits)
          if C.length > outCap then .err .capacityExceeded
          else
            .ok {
              out := C
              n := BitVec.ofNat 8 (a :: as).length
              byteCount := BitVec.ofNat 32 bc
              modulo := BitVec.ofNat 3 md
              freq := F
              depth := depthTable tbl }

/-- `Encode(IN, N)` (R105) with `N = IN_LEN`. -/
def runEncode (s : State) : CommandEnd :=
  if s.inLen.toNat > s.caps.inCap then .err .capacityExceeded
  else encodeBytes s.caps.outCap (s.inBuf.bytes s.inLen.toNat)

end Sys2Proof.Machine
end

