-- ==== Sys2Proof/Machine/Completion.lean ====
section
/-! DEFINITION. BLOCK's completion step (40_command.md rule R98). -/

namespace Sys2Proof.Machine

/-- Run the latched command (R98). -/
def runCommand (s : State) : CommandEnd :=
  match s.cmdl with
  | .encode => runEncode s
  | .decode => runDecode s

/-- The completion step (R98), one atomic transition from BUSY to DONE or ERROR (R20, R59). -/
def completionStep (s : State) : Host.Outcome State Fault Refusal :=
  match runCommand s with
  | .ok r => .next (finishCommand r s)
  | .err e => .next (errorCompletion e s)
  | .fault f => .fault f

end Sys2Proof.Machine
end

