-- ==== Sys2Proof/Decode.lean ====
section
/-! DEFINITION. The command word (30_encoding.md rules R70 to R72): the decoder, total on every 32-bit word, and the
encoder, written from the same table. No word is refused: "every 32-bit write value selects exactly one command". -/

namespace Sys2Proof

/-- The field CMD, bits [1:0] of the command word (R70). -/
def cmdField (w : Word) : BitVec 2 := w.extractLsb' 0 2

/-- The command map (R71). Bits [31:2] are ignored (R72). -/
def decode (w : Word) : Instr :=
  match (cmdField w).toNat with
  | 0 => .nop
  | 1 => .encode
  | 2 => .decode
  | _ => .reserved

/-- The command word of a command, its ignored bits written 0 (R71; the words of R84's `cmd.nop`, `cmd.encode` and
`cmd.decode`). -/
def encode : Instr → Word
  | .nop => 0x00000000#32
  | .encode => 0x00000001#32
  | .decode => 0x00000002#32
  | .reserved => 0x00000003#32

/-- The command of a table word of `nbits` bits: the bits above `nbits` are 0, and a number that does not fit the
32-bit CTRL register is no command word (log entry 16). -/
def decodeTableWord (nbits w : Nat) : Option Instr :=
  if w % 2 ^ nbits < 2 ^ 32 then some (decode (BitVec.ofNat 32 (w % 2 ^ nbits))) else none

end Sys2Proof
end

