-- ==== Sys2Proof/Machine/Commands.lean ====
section
/-! DEFINITION. What a command word does when HOST writes it to CTRL (40_command.md rules R95 to R97): one meaning per
command. ENCODE and DECODE are latched here, and run by the completion step (Machine/Completion.lean). -/

namespace Sys2Proof.Machine

/-- NOP (R96): no register, buffer or STATE changes, while BUSY or not. -/
def execNop (s : State) : Host.Outcome State Fault Refusal := .next s

/-- ENCODE (R95, R105): CMDL <- ENCODE, ERR <- 0, STATE <- BUSY; ignored while BUSY. -/
def execEncode (s : State) : Host.Outcome State Fault Refusal := .next (latchCommand .encode s)

/-- DECODE (R95, R130): CMDL <- DECODE, ERR <- 0, STATE <- BUSY; ignored while BUSY. -/
def execDecode (s : State) : Host.Outcome State Fault Refusal := .next (latchCommand .decode s)

/-- The reserved command (R97): IllegalCommand at once, changing only STATUS; ignored while BUSY. -/
def execReserved (s : State) : Host.Outcome State Fault Refusal :=
  .next (if s.phase = .busy then s else setError .illegalCommand s)

end Sys2Proof.Machine
end

