-- ==== Sys2Proof/Machine/HostPort.lean ====
section
/-! DEFINITION. One step of HOST (20_memory.md rules R51 and R52, 30_encoding.md rules R83 and R84): the accesses to
REG, IN and OUT, polling, and the reset input. An access outside the interface is refused by name (R178). -/

namespace Sys2Proof.Machine

/-- Why a register access has no host step, if it has none (R50, R51). -/
def regRefusal (off : Word) : Option Refusal :=
  if off.toNat % 4 ≠ 0 then some .regMisaligned
  else if off.toNat ≥ 4096 then some .regOutOfSpace
  else none

/-- `wr.reg OFF, WORD` inside the interface: a write to CTRL runs the command it encodes (R95), a write to IN_LEN stores
(R27), and every other write is ignored (R22, R34, R60). -/
def writeReg (off : Word) (w : Word) (s : State) : Host.Outcome State Fault Refusal :=
  match regOf off with
  | .ctrl => exec (decode w) s
  | .inLen => .next (hostWriteInLen w s)
  | _ => .next s

/-- `poll` (R84): one `rd.reg STATUS`; while it reads BUSY the poll goes on. -/
def hostPoll (s : State) : State :=
  let t := s.see (.word (statusWord s))
  if s.phase = .busy then { t with pending := .poll :: t.pending } else t

/-- One action of HOST. -/
def hostStep (a : HostAction) (s : State) : Host.Outcome State Fault Refusal :=
  match a with
  | .wrReg off w =>
    match regRefusal off with
    | some r => .refused r
    | none => writeReg off w s
  | .rdReg off =>
    match regRefusal off with
    | some r => .refused r
    | none => .next (hostReadReg off s)
  | .wrIn off b => if off.toNat < s.caps.inCap then .next (hostWriteIn off b s) else .refused .inOutOfRange
  | .rdIn off => if off.toNat < s.caps.inCap then .next (hostReadIn off s) else .refused .inOutOfRange
  | .rdOut off => if off.toNat < s.caps.outCap then .next (hostReadOut off s) else .refused .outOutOfRange
  | .wrOut off _ => if off.toNat < s.caps.outCap then .next s else .refused .outOutOfRange
  | .poll => .next (hostPoll s)
  | .reset => .next (resetInput s)

/-- HOST's next action becomes a write of `w` to CTRL (R95). While BUSY the next turn becomes HOST's, so that the
write is the very next step (log entry 8). -/
def placeCommand (w : Word) (s : State) : State :=
  { s with
    pending := .wrReg 0x000#32 w :: s.pending
    turns := if s.phase = .busy then .host :: s.turns else s.turns }

end Sys2Proof.Machine
end

