-- ==== Sys2Proof/Machine/Step.lean ====
section
/-! DEFINITION. One step of the machine: one action of HOST or one completion step of BLOCK (10_state.md rule R20), and
how a command word is placed where the next step takes it. -/

namespace Sys2Proof.Machine

/-- R20: the scheduled agent moves. With nothing to do the block waits and all its state is kept (R163). -/
def step (s : State) : Host.Outcome State Fault Refusal :=
  match schedule s with
  | .host a t => hostStep a t
  | .block t => completionStep t
  | .none => .next s

/-- The state whose next step is a CTRL write of the table word `w` of `nbits` bits (log entries 8 and 16). -/
def State.withFetchWord (s : State) (nbits w : Nat) : State :=
  placeCommand (BitVec.ofNat 32 (w % 2 ^ nbits)) s

end Sys2Proof.Machine
end

