-- ==== Sys2Proof/Safety.lean ====
section
/-! DEFINITION. What counts as a legal state, a good final state and a well-behaved host, and the fields of a container
by their offsets, in the terms the claims use. -/

namespace Sys2Proof.Machine

/-- No command is in flight (R153: a state with STATE = ERROR is a legal quiescent state). -/
abbrev State.quiescent (s : State) : Prop := s.phase ≠ .busy

/-- R46: a state with HAZARD set is never a good final state. -/
abbrev State.goodFinal (s : State) : Prop := s.quiescent ∧ s.hazard = false

/-- R25: ERR holds a code exactly while STATE = ERROR. -/
abbrev State.errOnlyInError (s : State) : Prop := s.err.isSome = true ↔ s.phase = .error

/-- The invariant of the machine: legal parameters (R6); ERR with ERROR only (R25); both buffers in canonical form and
inside their sizes (R50); OUT_LEN within OUT_CAP, and 0 in ERROR unless the error is IllegalCommand (R28, R42, R97);
the draw numbers of the buffers already used (log entry 4). -/
structure State.Inv (s : State) : Prop where
  caps : s.caps.Legal
  err : s.errOnlyInError
  inWf : s.inBuf.wf
  inWithin : s.inBuf.within s.caps.inCap
  outWf : s.outBuf.wf
  outWithin : s.outBuf.within s.caps.outCap
  outLen : s.outLen.toNat ≤ s.caps.outCap
  errorLen : s.phase = .error → s.err ≠ some .illegalCommand → s.outLen = 0#32
  inFill : s.inBuf.fill < s.draws
  outFill : s.outBuf.fill < s.draws

/-- HOST's duty (R178): every action still to come lies inside the interface. -/
abbrev State.hostInInterface (s : State) : Prop := ∀ a ∈ s.pending, a.wellFormed s.caps = true

/-- IN[0..N-1] with N = IN_LEN: the operand of ENCODE and DECODE (R105, R130). -/
abbrev State.input (s : State) : List Byte := s.inBuf.bytes s.inLen.toNat

/-- OUT[0..OUT_LEN-1] (R28, R36). -/
abbrev State.output (s : State) : List Byte := s.outBuf.bytes s.outLen.toNat

/-- L, the sum over the alphabet of `F[s] * len(CODE[s])` (R117), for the input `B` and its code table. -/
def codedLength (B : List Byte) (tbl : CodeTable) : Nat := (tbl.map fun e => B.count e.1 * e.2.length).sum

/-! ### The node arena, as rules R110 to R115 speak of it -/

/-- The priority order on arena entries (R111): by weight, then by index. -/
abbrev entryBefore (x y : Nat × Node) : Prop :=
  x.2.weight.toNat < y.2.weight.toNat ∨ (x.2.weight.toNat = y.2.weight.toNat ∧ x.1 < y.1)

/-- `NODE[k]`, if the arena uses index `k`. -/
def nodeAt (k : Nat) : List (Nat × Node) → Option Node
  | [] => none
  | (j, nd) :: rest => if j = k then some nd else nodeAt k rest

/-- The index at the end of a path from index `k` on: the bit 0 is the edge to the left child, the bit 1 the edge to the
right child (R111, R115). -/
def descend (arena : List (Nat × Node)) : Nat → Bits → Option Nat
  | k, [] => some k
  | k, b :: bs =>
    match nodeAt k arena with
    | some (.internal _ l r) => descend arena (if b then r else l) bs
    | some (.leaf _ _) => none
    | none => none

/-! ### The fields of a container, by offset (30_encoding.md rules R78 and R79) -/

/-- The byte at an offset. -/
def byteAt (C : List Byte) (o : Nat) : Byte := C.getD o 0#8

/-- `rd_u32le(C, o)`. -/
def wordAt (C : List Byte) (o : Nat) : Word :=
  rdU32le (byteAt C o) (byteAt C (o + 1)) (byteAt C (o + 2)) (byteAt C (o + 3))

/-- symbol_count. -/
def countField (C : List Byte) : Nat := (byteAt C 0).toNat

/-- The symbol of pair `i`. -/
def pairSymbol (C : List Byte) (i : Nat) : Byte := byteAt C (1 + 5 * i)

/-- The frequency of pair `i`. -/
def pairFreq (C : List Byte) (i : Nat) : Word := wordAt C (2 + 5 * i)

/-- byte_count. -/
def byteCountField (C : List Byte) : Word := wordAt C (1 + 5 * countField C)

/-- modulo. -/
def moduloField (C : List Byte) : Byte := byteAt C (5 + 5 * countField C)

/-- R132 (a) to (g): what makes ReadTable raise MalformedContainer. -/
abbrev IllegalContainer (C : List Byte) : Prop :=
  C.length = 0 ∨ countField C = 0 ∨ C.length < 6 + 5 * countField C ∨
  (∃ i, i < countField C ∧ pairFreq C i = 0#32) ∨
  (∃ j, j < countField C ∧ ∃ i, i < j ∧ pairSymbol C i = pairSymbol C j) ∨
  (moduloField C).toNat > 7 ∨
  C.length ≠ 6 + 5 * countField C + payloadLength (byteCountField C).toNat (moduloField C).toNat

end Sys2Proof.Machine
end

