-- ==== Sys2Proof/Certificates/Slice0/Obligations.lean ====
section
/-! DEFINITION. The statements about huffman_core that the provers settle. Each formalises what its docstring cites. A
statement about an unspecified value holds for every value of it: `Config.freeWord` and `Config.freeByte` have no body. -/

open Sys2Proof Sys2Proof.Machine

/-! ### Command words and dispatch -/

/-- R70: `CMD = wdata[1:0]` selects the command, and no other bit is decoded. -/
def Obligations.CmdFieldAloneSelectsTheCommand : Prop :=
  ∀ w : Word,
    (w.toNat % 4 = 0 → decode w = .nop) ∧ (w.toNat % 4 = 1 → decode w = .encode) ∧
    (w.toNat % 4 = 2 → decode w = .decode) ∧ (w.toNat % 4 = 3 → decode w = .reserved) ∧
    ∀ w' : Word, w'.toNat % 4 = w.toNat % 4 → decode w' = decode w

/-- 30_encoding.md R71 and R84, 95_test_vectors.md L2.8: a command's own word decodes to it, and so do a few words with
reserved bits set. -/
def Obligations.CommandWordsDecodeBack : Prop :=
  (∀ i : Instr, decode (encode i) = i) ∧
  decode 0x00000000#32 = .nop ∧ decode 0x00000001#32 = .encode ∧ decode 0x00000002#32 = .decode ∧
  decode 0x00000003#32 = .reserved ∧ decode 0x00000005#32 = .encode ∧ decode 0xFFFFFFFE#32 = .decode ∧
  decode 0xFFFFFFFC#32 = .nop ∧ decode 0xFFFFFFFF#32 = .reserved

/-- 40_command.md R95: the word HOST writes to CTRL is run as the command it encodes, and the model adds nothing around
it: in any state, after a command word is placed as HOST's next action (log entry 8), the next step is `exec` of the
decoded command. The same where the write stands in HOST's program, before a command or while one is in flight. -/
def Obligations.CtrlWriteRunsTheDecodedCommand : Prop :=
  (∀ (s : State) (w : Word), step (placeCommand w s) = exec (decode w) s) ∧
  (∀ (s : State) (nbits w : Nat),
    step (s.withFetchWord nbits w) = exec (decode (BitVec.ofNat 32 (w % 2 ^ nbits))) s) ∧
  (∀ (s : State) (w : Word) (as : List HostAction), s.phase ≠ .busy → s.pending = .wrReg 0x000#32 w :: as →
    step s = exec (decode w) { s with pending := as }) ∧
  (∀ (s : State) (w : Word) (as : List HostAction) (ts : List Agent), s.phase = .busy → s.turns = .host :: ts →
    s.pending = .wrReg 0x000#32 w :: as → step s = exec (decode w) { s with pending := as, turns := ts })

/-- R20, R58, R163: a step is one action of HOST in program order, or the completion step, enabled exactly when BUSY; with
neither, all state is kept. While BUSY the order is the model's `turns` (log entry 7). -/
def Obligations.StepIsTheScheduledAgentsMove : Prop :=
  (∀ (s : State) (a : HostAction) (as : List HostAction), s.phase ≠ .busy → s.pending = a :: as →
    step s = hostStep a { s with pending := as }) ∧
  (∀ (s : State) (a : HostAction) (as : List HostAction) (ts : List Agent), s.phase = .busy →
    s.turns = .host :: ts → s.pending = a :: as → step s = hostStep a { s with pending := as, turns := ts }) ∧
  (∀ s : State, s.phase = .busy → (s.turns.head? ≠ some .host ∨ s.pending = []) →
    step s = completionStep { s with turns := s.turns.tail }) ∧
  (∀ s : State, s.phase ≠ .busy → s.pending = [] → step s = .next s)

/-- R95: what a host write of `w` to CTRL does, in every state and for every word. -/
def Obligations.CtrlWriteDispatchesOnStateAndCmd : Prop :=
  ∀ (s : State) (w : Word),
    hostStep (.wrReg 0x000#32 w) s =
      if s.phase = .busy then .next s
      else if w.toNat % 4 = 0 then .next s
      else if w.toNat % 4 = 1 then .next { s with cmdl := .encode, err := none, phase := .busy }
      else if w.toNat % 4 = 2 then .next { s with cmdl := .decode, err := none, phase := .busy }
      else .next { s with phase := .error, err := some .illegalCommand }

/-- R96: NOP changes nothing, in every state. -/
def Obligations.NopChangesNothing : Prop :=
  ∀ s : State, exec .nop s = .next s

/-- R95: ENCODE and DECODE, outside BUSY, latch the command, clear ERR and enter BUSY, and change nothing else. -/
def Obligations.EncodeAndDecodeAreLatched : Prop :=
  ∀ s : State, s.phase ≠ .busy →
    exec .encode s = .next { s with cmdl := .encode, err := none, phase := .busy } ∧
    exec .decode s = .next { s with cmdl := .decode, err := none, phase := .busy }

/-- R97: the reserved command, outside BUSY, raises IllegalCommand at once (STATUS reads 0x63), and every other register,
IN and OUT keep their values, and the block takes no completion step for it; while BUSY it is ignored. -/
def Obligations.ReservedCommandRaisesIllegalCommand : Prop :=
  ∀ s : State,
    (s.phase ≠ .busy →
      exec .reserved s = .next { s with phase := .error, err := some .illegalCommand } ∧
      statusWord { s with phase := .error, err := some .illegalCommand } = 0x00000063#32 ∧
      ∀ u : State, schedule { s with phase := .error, err := some .illegalCommand } ≠ .block u) ∧
    (s.phase = .busy → exec .reserved s = .next s)

/-- R177: a command written while BUSY is ignored, whichever it is: it is lost, and that is no fault. -/
def Obligations.CommandWrittenWhileBusyIsIgnored : Prop :=
  ∀ s : State, s.phase = .busy →
    (∀ i : Instr, exec i s = .next s) ∧ ∀ w : Word, hostStep (.wrReg 0x000#32 w) s = .next s

/-- R95 to R97: the frame of the four commands. A CTRL write changes STATE, ERR and CMDL at most: every other register,
every table entry, every byte of IN and of OUT, the parameters, HAZARD and HOST's own side stay. -/
def Obligations.CommandsLeaveAllButStatusAndLatch : Prop :=
  ∀ (i : Instr) (s t : State), exec i s = .next t →
    t.inLen = s.inLen ∧ t.outLen = s.outLen ∧ t.symCount = s.symCount ∧ t.byteCount = s.byteCount ∧
    t.modulo = s.modulo ∧ t.freq = s.freq ∧ t.codeLen = s.codeLen ∧
    (∀ k : Nat, t.inBuf.read k = s.inBuf.read k) ∧ (∀ k : Nat, t.outBuf.read k = s.outBuf.read k) ∧
    t.caps = s.caps ∧ t.hazard = s.hazard ∧ t.draws = s.draws ∧ t.pending = s.pending ∧ t.turns = s.turns ∧
    t.seen = s.seen ∧
    (i = .nop → t.phase = s.phase ∧ t.err = s.err) ∧ (i = .nop ∨ i = .reserved → t.cmdl = s.cmdl)

/-! ### STATUS and reset -/

/-- R26: STATUS reads `(ERR << 4) | STATE`, its reserved bits read 0, host writes to it are ignored, a read of it changes
no state of the block, and it reads 0 after reset. -/
def Obligations.StatusReadsErrAndState : Prop :=
  (∀ s : State,
    (statusWord s).toNat = 16 * errBits s.err + phaseBits s.phase ∧
    (statusWord s).extractLsb' 2 2 = 0#2 ∧ (statusWord s).extractLsb' 8 24 = 0#24 ∧
    (∀ w : Word, hostStep (.wrReg 0x004#32 w) s = .next s) ∧
    hostStep (.rdReg 0x004#32) s = .next { s with seen := s.seen ++ [.word (statusWord s)] }) ∧
  statusWord State.reset = 0x00000000#32

/-- 30_encoding.md R73, the spec's own inference from R24 to R26 and R150: the values STATUS can take, and what each stands
for, in every state whose ERR agrees with its STATE (an invariant of the machine: StepKeepsTheInvariant). -/
def Obligations.StatusTakesOnlyItsNineValues : Prop :=
  ∀ s : State, s.errOnlyInError →
    (s.phase = .idle → statusWord s = 0x00000000#32) ∧ (s.phase = .busy → statusWord s = 0x00000001#32) ∧
    (s.phase = .done → statusWord s = 0x00000002#32) ∧
    (s.phase = .error →
      (s.err = some .emptyAlphabet ∧ statusWord s = 0x00000013#32) ∨
      (s.err = some .malformedContainer ∧ statusWord s = 0x00000023#32) ∨
      (s.err = some .invalidBitPath ∧ statusWord s = 0x00000033#32) ∨
      (s.err = some .unrepresentableAlphabetSize ∧ statusWord s = 0x00000043#32) ∨
      (s.err = some .capacityExceeded ∧ statusWord s = 0x00000053#32) ∨
      (s.err = some .illegalCommand ∧ statusWord s = 0x00000063#32))

/-- R170, R171: the reset input, in any state, puts every register at its reset value, clears HAZARD, and leaves every
byte of IN and OUT unspecified (a free value, drawn at the reset); a command in flight is abandoned: BLOCK's step is no
longer enabled. The state after power-up has the same register values. -/
def Obligations.ResetPutsEveryRegisterAtItsResetValue : Prop :=
  (∀ s : State, ∃ t : State, hostStep .reset s = .next t ∧
    t.phase = .idle ∧ t.err = none ∧ statusWord t = 0#32 ∧ t.inLen = 0#32 ∧ t.outLen = 0#32 ∧ t.symCount = 0#8 ∧
    t.byteCount = 0#32 ∧ t.modulo = 0#3 ∧
    (∀ x : Byte, regValue t (.freq x) = 0#32 ∧ regValue t (.codeLen x) = 0#32) ∧
    (∀ k : Nat, t.inBuf.read k = Config.freeByte s.draws k ∧ t.outBuf.read k = Config.freeByte (s.draws + 1) k) ∧
    t.hazard = false ∧ (∀ u : State, schedule t ≠ .block u) ∧ t.caps = s.caps) ∧
  (State.reset.phase = .idle ∧ State.reset.err = none ∧ State.reset.inLen = 0#32 ∧ State.reset.outLen = 0#32 ∧
    State.reset.symCount = 0#8 ∧ State.reset.byteCount = 0#32 ∧ State.reset.modulo = 0#3 ∧
    (∀ x : Byte, regValue State.reset (.freq x) = 0#32 ∧ regValue State.reset (.codeLen x) = 0#32) ∧
    State.reset.hazard = false)

/-- The invariant holds right after reset. The parameters there are the model's choice (log entry 1). -/
def Obligations.ResetMeetsTheInvariant : Prop := State.reset.Inv

/-- R6, R25, R28, R42, R50: every step keeps the invariant, from every state that meets it. -/
def Obligations.StepKeepsTheInvariant : Prop :=
  ∀ s t : State, s.Inv → step s = .next t → t.Inv

/-! ### What HOST reads and writes -/

/-- R22 to R33, R35, R36, R52, R179: outside BUSY a register read gives the register at that offset, a read of IN the byte
IN holds there, and a read of OUT the byte OUT holds there; none changes anything but what HOST has seen. -/
def Obligations.ReadsOutsideBusyGiveTheContents : Prop :=
  ∀ s : State, s.phase ≠ .busy →
    (∀ off : Word, off.toNat < s.caps.inCap →
      hostStep (.rdIn off) s = .next { s with seen := s.seen ++ [.byte (s.inBuf.read off.toNat)] }) ∧
    (∀ off : Word, off.toNat < s.caps.outCap →
      hostStep (.rdOut off) s = .next { s with seen := s.seen ++ [.byte (s.outBuf.read off.toNat)] }) ∧
    let gives := fun (off : Word) (v : Word) =>
      hostStep (.rdReg off) s = .next { s with seen := s.seen ++ [.word v] }
    gives 0x000#32 0#32 ∧ gives 0x004#32 (statusWord s) ∧ gives 0x008#32 s.inLen ∧ gives 0x00C#32 s.outLen ∧
    gives 0x010#32 (s.symCount.zeroExtend 32) ∧ gives 0x014#32 s.byteCount ∧ gives 0x018#32 (s.modulo.zeroExtend 32) ∧
    (∀ x : Byte, gives (BitVec.ofNat 32 (0x400 + 4 * x.toNat)) (FreqTable.at s.freq x)) ∧
    (∀ x : Byte, gives (BitVec.ofNat 32 (0x800 + 4 * x.toNat)) ((s.codeLen[x.toNat]'x.isLt).zeroExtend 32))

/-- R41: what reads give while BUSY. A result location gives an unspecified value, drawn at this read; the model numbers
its draws (log entries 4 and 5). -/
def Obligations.ReadsWhileBusy : Prop :=
  ∀ s : State, s.errOnlyInError → s.phase = .busy →
    let gives := fun (a : HostAction) (v : ReadValue) => hostStep a s = .next { s with seen := s.seen ++ [v] }
    let drawsWord := fun (off : Word) => hostStep (.rdReg off) s = .next
      { s with seen := s.seen ++ [.word (Config.freeWord s.draws off.toNat)], draws := s.draws + 1 }
    gives (.rdReg 0x004#32) (.word 0x00000001#32) ∧ gives (.rdReg 0x008#32) (.word s.inLen) ∧
    (∀ off : Word, off.toNat < s.caps.inCap → gives (.rdIn off) (.byte (s.inBuf.read off.toNat))) ∧
    gives (.rdReg 0x000#32) (.word 0#32) ∧
    (∀ off : Word, off.toNat % 4 = 0 → (0x01C ≤ off.toNat ∧ off.toNat ≤ 0x3FC ∨ 0xC00 ≤ off.toNat ∧ off.toNat ≤ 0xFFC) →
      gives (.rdReg off) (.word 0#32)) ∧
    drawsWord 0x00C#32 ∧ drawsWord 0x010#32 ∧ drawsWord 0x014#32 ∧ drawsWord 0x018#32 ∧
    (∀ x : Byte, drawsWord (BitVec.ofNat 32 (0x400 + 4 * x.toNat)) ∧ drawsWord (BitVec.ofNat 32 (0x800 + 4 * x.toNat))) ∧
    (∀ off : Word, off.toNat < s.caps.outCap → hostStep (.rdOut off) s = .next
      { s with seen := s.seen ++ [.byte (Config.freeByte s.draws off.toNat)], draws := s.draws + 1 })

/-- R34: the reserved register offsets read 0 and ignore writes, in every state. -/
def Obligations.ReservedOffsetsReadZeroAndIgnoreWrites : Prop :=
  ∀ (s : State) (off w : Word), off.toNat % 4 = 0 →
    (0x01C ≤ off.toNat ∧ off.toNat ≤ 0x3FC ∨ 0xC00 ≤ off.toNat ∧ off.toNat ≤ 0xFFC) →
    hostStep (.rdReg off) s = .next { s with seen := s.seen ++ [.word 0#32] } ∧ hostStep (.wrReg off w) s = .next s

/-- R60: no read changes the state of the block (only what HOST has seen, and the model's count of draws), and writes to
read-only registers, reserved offsets and OUT are ignored: of the registers, only CTRL and IN_LEN take a write. -/
def Obligations.ReadsChangeNoStateAndOtherWritesAreIgnored : Prop :=
  (∀ (s t : State) (off : Word), (hostStep (.rdReg off) s = .next t ∨ hostStep (.rdIn off) s = .next t ∨
      hostStep (.rdOut off) s = .next t) → { t with seen := s.seen, draws := s.draws } = s) ∧
  (∀ (s : State) (off w : Word), off.toNat % 4 = 0 → off.toNat < 4096 → off ≠ 0x000#32 → off ≠ 0x008#32 →
    hostStep (.wrReg off w) s = .next s) ∧
  (∀ (s : State) (off : Word) (b : Byte), off.toNat < s.caps.outCap → hostStep (.wrOut off b) s = .next s)

/-- R27, R176: a write to IN_LEN stores every 32-bit value, in every state, reads back unchanged, and while BUSY sets
HAZARD. -/
def Obligations.InLenStoresEveryValueAndReadsItBack : Prop :=
  ∀ (s : State) (w : Word),
    let t := { s with inLen := w, hazard := s.hazard || s.phase == .busy }
    hostStep (.wrReg 0x008#32 w) s = .next t ∧
    hostStep (.rdReg 0x008#32) t = .next { t with seen := t.seen ++ [.word w] }

/-- R35, R52, R176, R179: a write to IN stores its byte, leaves every other byte of IN and everything else, is seen by
the next read of that byte, and while BUSY sets HAZARD. -/
def Obligations.InByteWriteStoresItsByteOnly : Prop :=
  ∀ (s : State) (off : Word) (b : Byte), off.toNat < s.caps.inCap →
    ∃ t : State, hostStep (.wrIn off b) s = .next t ∧ t.inBuf.read off.toNat = b ∧
      (∀ k : Nat, k ≠ off.toNat → t.inBuf.read k = s.inBuf.read k) ∧
      t = { s with inBuf := t.inBuf, hazard := s.hazard || s.phase == .busy } ∧
      hostStep (.rdIn off) t = .next { t with seen := t.seen ++ [.byte b] }

/-- R46: HAZARD is clear at reset, is set by a host write to IN or IN_LEN while BUSY and by nothing else, and is cleared
by reset only. -/
def Obligations.HazardIsStickyAndSetByInputWritesWhileBusy : Prop :=
  State.reset.hazard = false ∧
  ∀ s t : State, step s = .next t →
    (∀ u : State, schedule s = .host .reset u → t.hazard = false) ∧
    (∀ (a : HostAction) (u : State), schedule s = .host a u → a ≠ .reset →
      (t.hazard = true ↔ s.hazard = true ∨
        (s.phase = .busy ∧ ((∃ off b, a = .wrIn off b) ∨ ∃ w, a = .wrReg 0x008#32 w)))) ∧
    ((∀ (a : HostAction) (u : State), schedule s ≠ .host a u) → t.hazard = s.hazard)

/-- R51, R52, R178: an access outside the interface has no step: it is refused by name (the names are the model's, log
entry 9). -/
def Obligations.AccessesOutsideTheInterfaceAreRefused : Prop :=
  (∀ (s : State) (off w : Word), off.toNat % 4 ≠ 0 →
    hostStep (.wrReg off w) s = .refused .regMisaligned ∧ hostStep (.rdReg off) s = .refused .regMisaligned) ∧
  (∀ (s : State) (off w : Word), off.toNat % 4 = 0 → off.toNat ≥ 4096 →
    hostStep (.wrReg off w) s = .refused .regOutOfSpace ∧ hostStep (.rdReg off) s = .refused .regOutOfSpace) ∧
  (∀ (s : State) (off : Word) (b : Byte), off.toNat ≥ s.caps.inCap →
    hostStep (.wrIn off b) s = .refused .inOutOfRange ∧ hostStep (.rdIn off) s = .refused .inOutOfRange) ∧
  (∀ (s : State) (off : Word) (b : Byte), off.toNat ≥ s.caps.outCap →
    hostStep (.wrOut off b) s = .refused .outOutOfRange ∧ hostStep (.rdOut off) s = .refused .outOutOfRange)

/-- R158: every host access inside the interface is permitted in every state, and none raises an error: it has a next
state, and outside a CTRL write STATE and ERR stay (reset aside). -/
def Obligations.AccessesInsideTheInterfaceComplete : Prop :=
  ∀ (s : State) (a : HostAction), a.wellFormed s.caps = true →
    ∃ t : State, hostStep a s = .next t ∧
      (a ≠ .reset → (∀ w : Word, a ≠ .wrReg 0x000#32 w) → t.phase = s.phase ∧ t.err = s.err)

/-- R84: `poll` reads STATUS, and goes on while it reads BUSY. -/
def Obligations.PollReadsStatusUntilNotBusy : Prop :=
  ∀ s : State,
    (s.phase = .busy → hostStep .poll s =
      .next { s with seen := s.seen ++ [.word (statusWord s)], pending := .poll :: s.pending }) ∧
    (s.phase ≠ .busy → hostStep .poll s = .next { s with seen := s.seen ++ [.word (statusWord s)] })

/-- R28 to R33, R36, R42: the result registers and OUT hold until the next completion step or reset: no action of HOST
but reset changes them. -/
def Obligations.HostActionsLeaveTheResults : Prop :=
  ∀ (a : HostAction) (s t : State), a ≠ .reset → hostStep a s = .next t →
    t.outLen = s.outLen ∧ t.symCount = s.symCount ∧ t.byteCount = s.byteCount ∧ t.modulo = s.modulo ∧
    t.freq = s.freq ∧ t.codeLen = s.codeLen ∧ (∀ k : Nat, t.outBuf.read k = s.outBuf.read k) ∧ t.caps = s.caps

/-! ### The sequencer -/

/-- R24: the values of STATE, its reset value, and its transitions: nothing else changes STATE. -/
def Obligations.StateChangesOnlyByItsTransitions : Prop :=
  phaseBits .idle = 0 ∧ phaseBits .busy = 1 ∧ phaseBits .done = 2 ∧ phaseBits .error = 3 ∧
  State.reset.phase = .idle ∧
  ∀ s t : State, step s = .next t →
    (∀ u : State, schedule s = .host .reset u → t.phase = .idle) ∧
    (∀ (w : Word) (u : State), schedule s = .host (.wrReg 0x000#32 w) u →
      (s.phase = .busy → t.phase = .busy) ∧
      (s.phase ≠ .busy → w.toNat % 4 = 0 → t.phase = s.phase) ∧
      (s.phase ≠ .busy → w.toNat % 4 = 1 ∨ w.toNat % 4 = 2 → t.phase = .busy) ∧
      (s.phase ≠ .busy → w.toNat % 4 = 3 → t.phase = .error)) ∧
    (∀ (a : HostAction) (u : State), schedule s = .host a u → a ≠ .reset → (∀ w : Word, a ≠ .wrReg 0x000#32 w) →
      t.phase = s.phase) ∧
    (∀ u : State, schedule s = .block u → s.phase = .busy ∧
      ((∃ r : Result, runCommand u = .ok r ∧ t.phase = .done) ∨ ∃ e : ErrorCode, runCommand u = .err e ∧ t.phase = .error)) ∧
    (schedule s = .none → t.phase = s.phase)

/-- R27, R35, R53: the completion step never changes IN or IN_LEN, nor CMDL, the parameters, HAZARD or HOST's own side. -/
def Obligations.CompletionLeavesTheInput : Prop :=
  ∀ s t : State, completionStep s = .next t →
    (∀ k : Nat, t.inBuf.read k = s.inBuf.read k) ∧ t.inBuf = s.inBuf ∧ t.inLen = s.inLen ∧ t.cmdl = s.cmdl ∧
    t.caps = s.caps ∧ t.hazard = s.hazard ∧ t.pending = s.pending ∧ t.turns = s.turns ∧ t.seen = s.seen

/-- 20_memory.md R66, the spec's own inference from R63 and R176: while a command is in flight and HAZARD stays clear, IN, IN_LEN and CMDL stay as they stood at the CTRL write, so
the completion step reads them as they stood then. -/
def Obligations.InputStandsAsAtTheCtrlWrite : Prop :=
  ∀ s t : State, s.phase = .busy → step s = .next t → t.hazard = false → t.phase = .idle ∨
    (t.inBuf = s.inBuf ∧ t.inLen = s.inLen ∧ t.cmdl = s.cmdl)

/-- R20, R98, R117: the completion step always completes, with DONE or ERROR; the translator's missing code (log entry
13) is unreachable. -/
def Obligations.CompletionStepAlwaysEndsInDoneOrError : Prop :=
  ∀ s : State, ∃ t : State, completionStep s = .next t ∧ (t.phase = .done ∨ t.phase = .error)

/-- R20: under the model's weakly fair schedules (log entry 7) a BUSY block leaves BUSY within one step more than it has
turns, if HOST keeps to the interface (R178). -/
def Obligations.BusyBlockLeavesBusyWithinItsTurns : Prop :=
  ∀ s : State, s.phase = .busy → s.hostInInterface →
    ∃ (k : Nat) (t : State), k ≤ s.turns.length + 1 ∧ Sys2Proof.core.run k s = Host.Outcome.next t ∧ t.phase ≠ .busy

/-- R158, R178: as long as HOST keeps to the interface no step stops, and the rest of HOST's program stays inside the
interface. -/
def Obligations.StepNeverStopsForADutifulHost : Prop :=
  ∀ s : State, s.hostInInterface → ∃ t : State, step s = .next t ∧ t.hostInInterface

/-- R98, R153: the error completion. STATE is ERROR with the error's code, OUT_LEN is 0, IN and IN_LEN are unchanged; every
other result register and every byte of OUT is unspecified, a free value of one draw of this step (log entry 4). -/
def Obligations.ErrorCompletionLeavesNoResult : Prop :=
  ∀ (s : State) (e : ErrorCode), runCommand s = .err e →
    ∃ t : State, completionStep s = .next t ∧ t.phase = .error ∧ t.err = some e ∧ t.outLen = 0#32 ∧
      t.symCount = (Config.freeWord s.draws 0x010).truncate 8 ∧ t.byteCount = Config.freeWord s.draws 0x014 ∧
      t.modulo = (Config.freeWord s.draws 0x018).truncate 3 ∧
      (∀ x : Byte, FreqTable.at t.freq x = Config.freeWord s.draws (0x400 + 4 * x.toNat)) ∧
      (∀ x : Byte, t.codeLen[x.toNat]'x.isLt = (Config.freeWord s.draws (0x800 + 4 * x.toNat)).truncate 8) ∧
      (∀ k : Nat, t.outBuf.read k = Config.freeByte s.draws k) ∧ t.draws = s.draws + 1 ∧
      t.inBuf = s.inBuf ∧ t.inLen = s.inLen

/-- 60_exceptions.md R154, the spec's own inference from R152 and R122: running the same command again on the same IN and
IN_LEN reports the same error. -/
def Obligations.RunningAgainReportsTheSameError : Prop :=
  ∀ (s t : State) (e : ErrorCode), s.phase = .busy → completionStep s = .next t → t.phase = .error → t.err = some e →
    ∃ u v : State, exec (match s.cmdl with | .encode => .encode | .decode => .decode) t = .next u ∧
      completionStep u = .next v ∧ v.phase = .error ∧ v.err = some e

/-- R100, and R122, the spec's own inference from R105 to R119: what a command does depends on IN[0..N-1], IN_LEN and the parameters alone: not on earlier commands, not on
OUT, not on the other bytes of IN, not on the result registers. -/
def Obligations.CommandDependsOnItsInputAlone : Prop :=
  ∀ s s' t : State, s'.caps = s.caps → s'.cmdl = s.cmdl → s'.inLen = s.inLen →
    (∀ k : Nat, k < s.inLen.toNat → s'.inBuf.read k = s.inBuf.read k) → completionStep s = .next t →
    ∃ t' : State, completionStep s' = .next t' ∧ t'.phase = t.phase ∧ t'.err = t.err ∧ t'.outLen = t.outLen ∧
      (t.phase = .done → t'.output = t.output ∧ t'.symCount = t.symCount ∧ t'.byteCount = t.byteCount ∧
        t'.modulo = t.modulo ∧ t'.freq = t.freq ∧ t'.codeLen = t.codeLen)

/-! ### ENCODE -/

/-- R98, R105, R120: ENCODE of a non-empty input that fits in IN, has at most 255 distinct symbols, and whose container
fits in OUT, completes with the container of its frequencies, codes and packed bits in OUT, and with the result
registers. The premise on HAZARD is R176's. -/
def Obligations.EncodeLeavesTheContainerAndTheTables : Prop :=
  ∀ (s : State) (a : Byte) (as : List Byte), s.caps.Legal → s.hazard = false → s.phase ≠ .busy →
    0 < s.inLen.toNat → s.inLen.toNat ≤ s.caps.inCap → alphabet (freqAnalyze s.input) = a :: as →
    (a :: as).length ≤ 255 →
    let F := freqAnalyze s.input
    let tbl := codeGen (buildTree F a as)
    let L := codedLength s.input tbl
    6 + 5 * (a :: as).length + payloadLength (L / 8) (L % 8) ≤ s.caps.outCap →
    ∃ (t u : State) (bits : Bits), exec .encode s = .next t ∧ completionStep t = .next u ∧
      translateBytes tbl s.input = some bits ∧ bits.length = L ∧
      statusWord u = 0x00000002#32 ∧
      u.outLen.toNat = 6 + 5 * (a :: as).length + payloadLength (L / 8) (L % 8) ∧
      u.output = writeContainer (a :: as) F (L / 8) (L % 8) (packBits bits) ∧
      (∀ k : Nat, u.outLen.toNat ≤ k → u.outBuf.read k = s.outBuf.read k) ∧
      u.symCount.toNat = (a :: as).length ∧ u.byteCount.toNat = L / 8 ∧ u.modulo.toNat = L % 8 ∧
      (∀ x : Byte, (FreqTable.at u.freq x).toNat = s.input.count x) ∧
      (∀ x : Byte, (u.codeLen[x.toNat]'x.isLt).toNat = match codeOf x tbl with | some c => c.length | none => 0) ∧
      u.inBuf = s.inBuf ∧ u.inLen = s.inLen ∧ u.cmdl = .encode ∧ u.caps = s.caps ∧ u.hazard = false ∧
      u.draws = s.draws ∧ u.pending = s.pending ∧ u.turns = s.turns ∧ u.seen = s.seen

/-- R105, R152: which error ENCODE reports, in the order of its checks. -/
def Obligations.EncodeReportsTheFirstErrorInOrder : Prop :=
  ∀ s : State,
    (s.inLen.toNat > s.caps.inCap → runEncode s = .err .capacityExceeded) ∧
    (s.inLen.toNat ≤ s.caps.inCap → s.inLen.toNat = 0 → runEncode s = .err .emptyAlphabet) ∧
    (s.inLen.toNat ≤ s.caps.inCap → (∀ x : Byte, x ∈ s.input) → runEncode s = .err .unrepresentableAlphabetSize) ∧
    (∀ (a : Byte) (as : List Byte), s.inLen.toNat ≤ s.caps.inCap → alphabet (freqAnalyze s.input) = a :: as →
      (a :: as).length ≤ 255 →
      s.caps.outCap < 6 + 5 * (a :: as).length +
        payloadLength (codedLength s.input (codeGen (buildTree (freqAnalyze s.input) a as)) / 8)
          (codedLength s.input (codeGen (buildTree (freqAnalyze s.input) a as)) % 8) →
      runEncode s = .err .capacityExceeded)

/-- R106, and R107, the spec's own inference from R106 and R27: FreqAnalyze counts the occurrences of each symbol, does not depend on the order of the bytes, and its
frequencies sum to the length of the input. -/
def Obligations.FrequenciesCountOccurrencesAndSumToTheLength : Prop :=
  ∀ bs : List Byte, bs.length < 2 ^ 32 →
    (∀ x : Byte, (FreqTable.at (freqAnalyze bs) x).toNat = bs.count x) ∧
    (∀ bs' : List Byte, bs.Perm bs' → freqAnalyze bs' = freqAnalyze bs) ∧
    freqSum (freqAnalyze bs) = bs.length

/-- R108: the alphabet is the ascending list of the symbols with a frequency above 0, and after FreqAnalyze of a non-empty
input it has 1 to 256 symbols. -/
def Obligations.AlphabetIsTheAscendingListOfPresentSymbols : Prop :=
  (∀ F : FreqTable, (alphabet F).Pairwise (fun x y => x.toNat < y.toNat) ∧
    ∀ x : Byte, x ∈ alphabet F ↔ 0 < (FreqTable.at F x).toNat) ∧
  ∀ bs : List Byte, 1 ≤ bs.length → bs.length < 2 ^ 32 →
    1 ≤ (alphabet (freqAnalyze bs)).length ∧ (alphabet (freqAnalyze bs)).length ≤ 256

/-! ### The tree and the codes -/

/-- R111: what is extracted is the least node of the set in the order (weight, sequence number), and the rest of the set is
left; where sequence numbers differ it is the only least one. -/
def Obligations.ExtractionTakesTheLeastNode : Prop :=
  ∀ (t x : Tree) (q rest : List Tree), popMin t q = (x, rest) →
    (x :: rest).Perm (t :: q) ∧
    (∀ y ∈ rest, x.weight.toNat < y.weight.toNat ∨ (x.weight.toNat = y.weight.toNat ∧ x.idx ≤ y.idx)) ∧
    ((t :: q).Pairwise (fun y z => y.idx ≠ z.idx) → ∀ y ∈ rest, x.before y = true ∧ y.before x = false)

/-- R112, R113: the tree of n symbols uses exactly the arena indices 0 to 2n - 2, each once, of which the indices 0 to n - 1
are the leaves, in ascending order of the alphabet; the root is 2n - 2; every child has a lower index than its parent;
every node but the root is the child of exactly one node; a single symbol gives one leaf. R113 is the spec's own
inference from R110 and R111. -/
def Obligations.TreeUsesTheArenaAsR113Says : Prop :=
  ∀ (F : FreqTable) (a : Byte) (as : List Byte), (a :: as).length ≤ 255 →
    (buildTree F a as).idx = 2 * (a :: as).length - 2 ∧
    ((buildTree F a as).arena.map Prod.fst).Perm (List.range (2 * (a :: as).length - 1)) ∧
    (∀ (k : Nat) (h : k < (a :: as).length),
      (k, Node.leaf (a :: as)[k] ((FreqTable.at F (a :: as)[k]).zeroExtend 40)) ∈ (buildTree F a as).arena) ∧
    (∀ (k : Nat) (x : Byte) (w : Weight), (k, Node.leaf x w) ∈ (buildTree F a as).arena → k < (a :: as).length) ∧
    (∀ (k l r : Nat) (w : Weight), (k, Node.internal w l r) ∈ (buildTree F a as).arena → l < k ∧ r < k) ∧
    ((buildTree F a as).arena.flatMap fun e => match e.2 with | .leaf _ _ => [] | .internal _ l r => [l, r]).Perm
      (List.range (2 * (a :: as).length - 2)) ∧
    (as = [] → buildTree F a as = .leaf 0 a ((FreqTable.at F a).zeroExtend 40))

/-- R109: no weight overflows its 40 bits: every internal node weighs exactly the sum of its children, and no node more
than the sum of the frequencies of the alphabet. -/
def Obligations.WeightsAreExactSums : Prop :=
  ∀ (F : FreqTable) (a : Byte) (as : List Byte), alphabet F = a :: as → (a :: as).length ≤ 255 →
    (buildTree F a as).weight.toNat = freqSum F ∧
    (∀ (k l r : Nat) (w : Weight), (k, Node.internal w l r) ∈ (buildTree F a as).arena →
      ∃ nl ∈ (buildTree F a as).arena, ∃ nr ∈ (buildTree F a as).arena, nl.1 = l ∧ nr.1 = r ∧
        w.toNat = nl.2.weight.toNat + nr.2.weight.toNat) ∧
    (∀ nd ∈ (buildTree F a as).arena, nd.2.weight.toNat ≤ freqSum F)

/-- R115, R136: exactly the symbols of the alphabet have a code; a single symbol's code is empty; a symbol's code is the path
in the node arena from the root to its leaf, the bit 0 going to the left child and the bit 1 to the right child; with two
symbols or more the walk reads a code as that path: it ends at the symbol's leaf. -/
def Obligations.CodesAreThePathsToTheLeaves : Prop :=
  ∀ (F : FreqTable) (a : Byte) (as : List Byte), alphabet F = a :: as →
    (∀ x : Byte, (codeOf x (codeGen (buildTree F a as))).isSome = true ↔ x ∈ alphabet F) ∧
    (as = [] → codeOf a (codeGen (buildTree F a as)) = some []) ∧
    (∀ (x : Byte) (c : Bits), codeOf x (codeGen (buildTree F a as)) = some c →
      ∃ (k : Nat) (w : Weight), descend (buildTree F a as).arena (buildTree F a as).idx c = some k ∧
        (k, Node.leaf x w) ∈ (buildTree F a as).arena) ∧
    (as ≠ [] → ∀ (x : Byte) (c : Bits), codeOf x (codeGen (buildTree F a as)) = some c →
      walkFrom (buildTree F a as) (buildTree F a as) c = some [x])

/-- 41_encoder.md R116, the spec's own inference from R113 and R115: with at least two symbols no code is a prefix of another symbol's code, and no code is empty. -/
def Obligations.CodesArePrefixFree : Prop :=
  ∀ (F : FreqTable) (a : Byte) (as : List Byte), alphabet F = a :: as → as ≠ [] →
    ∀ (x y : Byte) (c d : Bits), codeOf x (codeGen (buildTree F a as)) = some c →
      codeOf y (codeGen (buildTree F a as)) = some d → c ≠ [] ∧ (x ≠ y → ¬ c <+: d)

/-- 41_encoder.md R114, the spec's own inference from R113: a code of an alphabet of n symbols has at most n - 1 bits, so that for n up to 255 CODE_LEN holds its length
whole. -/
def Obligations.CodeLengthsFitTheirField : Prop :=
  ∀ (F : FreqTable) (a : Byte) (as : List Byte), alphabet F = a :: as →
    (∀ (x : Byte) (c : Bits), codeOf x (codeGen (buildTree F a as)) = some c → c.length ≤ as.length) ∧
    ((a :: as).length ≤ 255 → ∀ (x : Byte) (c : Bits), codeOf x (codeGen (buildTree F a as)) = some c →
      ((depthTable (codeGen (buildTree F a as)))[x.toNat]'x.isLt).toNat = c.length)

/-- 41_encoder.md R121, the spec's own inference from R111 and R117 (a Huffman code is optimal): for every input of at most 255 distinct symbols the coded length is at most 8 bits a byte, so byte_count fits its
field. -/
def Obligations.CodedLengthIsAtMostEightBitsAByte : Prop :=
  ∀ (bs : List Byte) (a : Byte) (as : List Byte) (bits : Bits), bs.length < 2 ^ 32 →
    alphabet (freqAnalyze bs) = a :: as → (a :: as).length ≤ 255 →
    translateBytes (codeGen (buildTree (freqAnalyze bs) a as)) bs = some bits →
    bits.length ≤ 8 * bs.length ∧ bits.length / 8 ≤ bs.length ∧ bits.length / 8 < 2 ^ 32

/-! ### The bit string and the container -/

/-- R118, R134: unpacking the packed form of a bit string gives it back. -/
def Obligations.UnpackOfPackIsTheBitString : Prop :=
  ∀ bits : Bits, unpackBits (packBits bits) (bits.length / 8) (bits.length % 8) = bits

/-- R80: bit string position p is stored in payload byte p div 8 at bit 7 - (p mod 8); the payload has one byte more than
byte_count exactly when modulo is above 0; the padding bits are written 0, and the reader ignores them. -/
def Obligations.PayloadBitsStandWhereR80Says : Prop :=
  (∀ bits : Bits,
    (packBits bits).length = payloadLength (bits.length / 8) (bits.length % 8) ∧
    (∀ (p : Nat) (h : p < bits.length), ((packBits bits).getD (p / 8) 0#8).getLsbD (7 - p % 8) = bits[p]) ∧
    (∀ p : Nat, bits.length ≤ p → p < 8 * (packBits bits).length →
      ((packBits bits).getD (p / 8) 0#8).getLsbD (7 - p % 8) = false)) ∧
  (∀ (full : List Byte) (v v' : Byte) (md : Nat), md ≤ 7 →
    (∀ i : Nat, i < md → v.getLsbD (7 - i) = v'.getLsbD (7 - i)) →
    unpackBits (full ++ [v]) full.length md = unpackBits (full ++ [v']) full.length md)

/-- 30_encoding.md R78, the spec's own inference from R74 to R77: the layout of a written container, by byte offset. -/
def Obligations.WrittenContainerHasTheLayout : Prop :=
  ∀ (A : List Byte) (F : FreqTable) (bc md : Nat) (P : List Byte), 1 ≤ A.length → A.length ≤ 255 → bc < 2 ^ 32 →
    md ≤ 7 → P.length = payloadLength bc md →
    let C := writeContainer A F bc md P
    C.length = 6 + 5 * A.length + bc + (if md > 0 then 1 else 0) ∧ countField C = A.length ∧
    (∀ (i : Nat) (h : i < A.length), pairSymbol C i = A[i] ∧ pairFreq C i = FreqTable.at F A[i]) ∧
    (byteCountField C).toNat = bc ∧ (moduloField C).toNat = md ∧ C.drop (6 + 5 * A.length) = P

/-- R131, R132: ReadTable refuses exactly the byte sequences of R132 (a) to (g), for every length up to IN_CAP. -/
def Obligations.ReadTableRefusesExactlyTheIllegalContainers : Prop :=
  ∀ C : List Byte, readTable C = none ↔ IllegalContainer C

/-- R79, R131: what ReadTable reads from a container it accepts: n, the table, byte_count, modulo and the payload; the table
has exactly the n symbols of the pairs. -/
def Obligations.ReadTableReadsTheFields : Prop :=
  ∀ (C : List Byte) (t : Table), readTable C = some t →
    t.n.toNat = countField C ∧ t.bc = byteCountField C ∧ t.md = moduloField C ∧ t.md.toNat ≤ 7 ∧
    t.payload = C.drop (6 + 5 * countField C) ∧
    (∀ i : Nat, i < countField C → FreqTable.at t.F (pairSymbol C i) = pairFreq C i) ∧
    (∀ x : Byte, (∀ i : Nat, i < countField C → pairSymbol C i ≠ x) → FreqTable.at t.F x = 0#32) ∧
    (alphabet t.F).length = countField C

/-- R78, R119, R131: reading a written container gives back its table, its byte_count and modulo, and its payload. -/
def Obligations.ReadTableOfWriteContainerIsTheTable : Prop :=
  ∀ (F : FreqTable) (bc md : Nat) (P : List Byte), 1 ≤ (alphabet F).length → (alphabet F).length ≤ 255 →
    bc < 2 ^ 32 → md ≤ 7 → P.length = payloadLength bc md →
    readTable (writeContainer (alphabet F) F bc md P) =
      some { n := BitVec.ofNat 8 (alphabet F).length, F := F, bc := BitVec.ofNat 32 bc, md := BitVec.ofNat 8 md,
             payload := P }

/-! ### DECODE -/

/-- R130, R135 to R138: DECODE of a container that ReadTable accepts, whose payload gives the bytes `S` (by the single
symbol's frequency, or by the walk, with the count agreeing), and that fits in OUT, completes with `S` in OUT and with
the result registers. The premise on HAZARD is R176's. -/
def Obligations.DecodeLeavesTheBytesAndTheTables : Prop :=
  ∀ (s : State) (tab : Table) (a : Byte) (as S : List Byte), s.caps.Legal → s.hazard = false → s.phase ≠ .busy →
    s.inLen.toNat ≤ s.caps.inCap → readTable s.input = some tab → alphabet tab.F = a :: as →
    ((tab.n = 1#8 ∧ tab.bc = 0#32 ∧ tab.md = 0#8 ∧ S = List.replicate (FreqTable.at tab.F a).toNat a) ∨
      (tab.n ≠ 1#8 ∧ walkFrom (buildTree tab.F a as) (buildTree tab.F a as)
        (unpackBits tab.payload tab.bc.toNat tab.md.toNat) = some S ∧ S.length = freqSum tab.F)) →
    S.length ≤ s.caps.outCap →
    ∃ t u : State, exec .decode s = .next t ∧ completionStep t = .next u ∧
      statusWord u = 0x00000002#32 ∧ u.outLen.toNat = S.length ∧ u.output = S ∧
      (∀ k : Nat, S.length ≤ k → u.outBuf.read k = s.outBuf.read k) ∧
      u.symCount = tab.n ∧ u.byteCount = tab.bc ∧ u.modulo.toNat = tab.md.toNat ∧ u.freq = tab.F ∧
      (∀ x : Byte, (u.codeLen[x.toNat]'x.isLt).toNat =
        match codeOf x (codeGen (buildTree tab.F a as)) with | some c => c.length | none => 0) ∧
      u.inBuf = s.inBuf ∧ u.inLen = s.inLen ∧ u.cmdl = .decode ∧ u.caps = s.caps ∧ u.hazard = false ∧
      u.draws = s.draws ∧ u.pending = s.pending ∧ u.turns = s.turns ∧ u.seen = s.seen

/-- R130, R152: which error DECODE reports, in the order of its checks. -/
def Obligations.DecodeReportsTheFirstErrorInOrder : Prop :=
  ∀ s : State,
    (s.inLen.toNat > s.caps.inCap → runDecode s = .err .capacityExceeded) ∧
    (s.inLen.toNat ≤ s.caps.inCap → IllegalContainer s.input → runDecode s = .err .malformedContainer) ∧
    (s.inLen.toNat ≤ s.caps.inCap → ¬ IllegalContainer s.input → countField s.input = 1 →
      ((byteCountField s.input ≠ 0#32 ∨ moduloField s.input ≠ 0#8) → runDecode s = .err .malformedContainer) ∧
      (byteCountField s.input = 0#32 → moduloField s.input = 0#8 → (pairFreq s.input 0).toNat > s.caps.outCap →
        runDecode s = .err .capacityExceeded)) ∧
    (∀ (tab : Table) (a : Byte) (as : List Byte), s.inLen.toNat ≤ s.caps.inCap → readTable s.input = some tab →
      countField s.input ≠ 1 → alphabet tab.F = a :: as →
      let walk := walkFrom (buildTree tab.F a as) (buildTree tab.F a as)
        (unpackBits tab.payload tab.bc.toNat tab.md.toNat)
      (walk = none → runDecode s = .err .invalidBitPath) ∧
      (∀ S : List Byte, walk = some S →
        (S.length ≠ freqSum tab.F → runDecode s = .err .malformedContainer) ∧
        (S.length = freqSum tab.F → S.length > s.caps.outCap → runDecode s = .err .capacityExceeded)))

/-- R117, R133, R136: walking the translation of a byte string through the tree it was coded with gives the byte string
back, for every alphabet of two symbols or more. -/
def Obligations.WalkOfTranslationIsTheInput : Prop :=
  ∀ (F : FreqTable) (a : Byte) (as bs : List Byte) (bits : Bits), alphabet F = a :: as → as ≠ [] →
    translateBytes (codeGen (buildTree F a as)) bs = some bits →
    walkFrom (buildTree F a as) (buildTree F a as) bits = some bs

/-- 42_decoder.md R140, the spec's own inference from R136 and R113: with two symbols or more the walk never meets a bit without a child: every bit string can be extended to one whose
walk succeeds. -/
def Obligations.WalkCanFailOnlyAtItsEnd : Prop :=
  ∀ (F : FreqTable) (a : Byte) (as : List Byte) (bits : Bits), as ≠ [] →
    ∃ (more : Bits) (S : List Byte),
      walkFrom (buildTree F a as) (buildTree F a as) (bits ++ more) = some S

/-- 42_decoder.md R139, the spec's own inference from R130 to R137 and R105 to R119: for a non-empty buffer of at most 255 distinct byte values, whose container fits in OUT and which itself fits in
OUT, DECODE of its container gives the buffer back, with the same tables. -/
def Obligations.DecodeOfEncodeIsTheBuffer : Prop :=
  ∀ (outCap : Nat) (B : List Byte), outCap < 2 ^ 32 → 1 ≤ B.length → B.length < 2 ^ 32 → B.dedup.length ≤ 255 →
    B.length ≤ outCap → encodeBytes outCap B ≠ .err .capacityExceeded →
    ∃ r q : Result, encodeBytes outCap B = .ok r ∧ decodeBytes outCap r.out = .ok q ∧ q.out = B ∧ q.n = r.n ∧
      q.byteCount = r.byteCount ∧ q.modulo = r.modulo ∧ q.freq = r.freq ∧ q.depth = r.depth

/-- R139 on the machine: after an ENCODE that ends in DONE, a DECODE whose input is the bytes ENCODE left in OUT ends in DONE
with ENCODE's input in OUT and the same result registers, whatever else its state holds. -/
def Obligations.DecodeOfEncodedOutputRestoresTheInput : Prop :=
  ∀ s t s' : State, s.caps.Legal → s.hazard = false → s.phase = .busy → s.cmdl = .encode →
    completionStep s = .next t → t.phase = .done → t.outLen.toNat ≤ s.caps.inCap →
    s.inLen.toNat ≤ s.caps.outCap →
    s'.caps = s.caps → s'.hazard = false → s'.phase = .busy → s'.cmdl = .decode → s'.inLen = t.outLen →
    s'.input = t.output →
    ∃ u : State, completionStep s' = .next u ∧ u.phase = .done ∧ u.outLen = s.inLen ∧ u.output = s.input ∧
      u.symCount = t.symCount ∧ u.byteCount = t.byteCount ∧ u.modulo = t.modulo ∧ u.freq = t.freq ∧
      u.codeLen = t.codeLen

/-- 42_decoder.md R141, the spec's own inference from R132: a container ENCODE wrote, without its last byte, is always MalformedContainer. -/
def Obligations.TruncatedContainerIsMalformed : Prop :=
  ∀ (outCap outCap' : Nat) (B : List Byte) (r : Result), outCap < 2 ^ 32 → encodeBytes outCap B = .ok r →
    decodeBytes outCap' r.out.dropLast = .err .malformedContainer

/-! ### The order of the merges -/

/-- R111: the children of the internal nodes, in the order in which the nodes are made, left child before right child, rise
strictly in the priority order: the first node extracted is the left child, the second the right child, and what a merge
extracts comes before what a later merge extracts. -/
def Obligations.ChildrenStandInTheOrderOfExtraction : Prop :=
  ∀ (F : FreqTable) (a : Byte) (as : List Byte), (a :: as).length ≤ 255 →
    (∀ (k l r : Nat) (w : Weight), (k, Node.internal w l r) ∈ (buildTree F a as).arena →
      ∃ x ∈ (buildTree F a as).arena, ∃ y ∈ (buildTree F a as).arena, x.1 = l ∧ y.1 = r ∧ entryBefore x y) ∧
    (∀ (k k' l l' r r' : Nat) (w w' : Weight), k < k' → (k, Node.internal w l r) ∈ (buildTree F a as).arena →
      (k', Node.internal w' l' r') ∈ (buildTree F a as).arena →
      ∃ x ∈ (buildTree F a as).arena, ∃ y ∈ (buildTree F a as).arena, x.1 = r ∧ y.1 = l' ∧ entryBefore x y)
end

