-- ==== Sys2Proof/Laws/Codec.lean ====
section
/-! SUPPORT. What the operand operations do: tables, the alphabet, the little-endian fields, and the bits of a byte. -/

namespace Sys2Proof.Machine

/-! ### Tables and the alphabet -/

theorem allSymbols_length : allSymbols.length = 256 := by simp [allSymbols]

theorem allSymbols_getElem {k : Nat} (h : k < allSymbols.length) : allSymbols[k] = BitVec.ofNat 8 k := by
  simp [allSymbols]

/-- The symbols are listed in ascending order. -/
theorem allSymbols_sorted : allSymbols.Pairwise fun x y => x.toNat < y.toNat := by
  refine List.pairwise_iff_getElem.2 fun i j hi hj hij => ?_
  rw [allSymbols_length] at hi hj
  simp only [allSymbols_getElem, BitVec.toNat_ofNat]
  omega

theorem mem_allSymbols (s : Byte) : s ∈ allSymbols := by
  refine List.mem_map.2 ⟨s.toNat, List.mem_range.2 s.isLt, ?_⟩
  simp

/-- An entry of a table. -/
@[simp] theorem tableOf_getElem {α : Type} (f : Byte → α) (s : Byte) : (tableOf f)[s.toNat]'s.isLt = f s := by
  simp [tableOf, allSymbols]

@[simp] theorem tableOf_at (f : Byte → Word) (s : Byte) : FreqTable.at (tableOf f) s = f s := tableOf_getElem f s

@[simp] theorem replicate_at (f : Word) (s : Byte) : FreqTable.at (Vector.replicate 256 f) s = f := by
  simp [FreqTable.at]

theorem put_at (F : FreqTable) (s t : Byte) (f : Word) :
    FreqTable.at (FreqTable.put F s f) t = if s = t then f else FreqTable.at F t := by
  simp only [FreqTable.at, FreqTable.put, Vector.getElem_set, BitVec.toNat_inj]

/-- A table is the list of its entries, symbol by symbol. -/
theorem table_toList (F : FreqTable) : F.toList = allSymbols.map (FreqTable.at F) := by
  apply List.ext_getElem
  · simp [allSymbols]
  · intro k h1 h2
    have hk : k < 256 := by simpa using h1
    simp [allSymbols, FreqTable.at, Nat.mod_eq_of_lt hk]

/-- Two tables with the same entries are the same. -/
theorem table_ext {F G : FreqTable} (h : ∀ s, FreqTable.at F s = FreqTable.at G s) : F = G := by
  apply Vector.toList_inj.1
  rw [table_toList, table_toList]
  exact List.map_congr_left fun s _ => h s

theorem alphabet_eq_filter (F : FreqTable) : alphabet F = allSymbols.filter fun s => FreqTable.at F s != 0#32 := by
  have key : ∀ l : List Byte, ((l.zip (l.map (FreqTable.at F))).filter fun p => p.2 != 0#32).map Prod.fst =
      l.filter fun s => FreqTable.at F s != 0#32 := by
    intro l
    induction l with
    | nil => rfl
    | cons s l ih =>
      simp only [List.map_cons, List.zip_cons_cons, List.filter_cons]
      split <;> simp [ih]
  rw [alphabet, table_toList, key]

/-- The alphabet is the set of symbols with a frequency above 0 (R108). -/
theorem mem_alphabet {F : FreqTable} {s : Byte} : s ∈ alphabet F ↔ FreqTable.at F s ≠ 0#32 := by
  simp [alphabet_eq_filter, mem_allSymbols]

/-- The alphabet is in ascending order (R108). -/
theorem alphabet_sorted (F : FreqTable) : (alphabet F).Pairwise fun x y => x.toNat < y.toNat := by
  rw [alphabet_eq_filter]
  exact allSymbols_sorted.filter _

theorem alphabet_nodup (F : FreqTable) : (alphabet F).Nodup :=
  (alphabet_sorted F).imp fun h e => by subst e; exact absurd h (lt_irrefl _)

theorem alphabet_length_le (F : FreqTable) : (alphabet F).length ≤ 256 := by
  rw [alphabet_eq_filter]
  exact (List.length_filter_le _ _).trans allSymbols_length.le

theorem freqAnalyze_at (bs : List Byte) (s : Byte) : FreqTable.at (freqAnalyze bs) s = BitVec.ofNat 32 (bs.count s) :=
  tableOf_at _ s

/-- Within 32 bits, an entry of the frequency table is the number of occurrences (R106). -/
theorem freqAnalyze_toNat {bs : List Byte} (h : bs.length < 2 ^ 32) (s : Byte) :
    (FreqTable.at (freqAnalyze bs) s).toNat = bs.count s := by
  rw [freqAnalyze_at, BitVec.toNat_ofNat]
  exact Nat.mod_eq_of_lt (List.count_le_length.trans_lt h)

/-- The alphabet of an input is the set of its bytes. -/
theorem mem_alphabet_freqAnalyze {bs : List Byte} (h : bs.length < 2 ^ 32) {s : Byte} :
    s ∈ alphabet (freqAnalyze bs) ↔ s ∈ bs := by
  rw [mem_alphabet, ← List.count_pos_iff, ← freqAnalyze_toNat h, Nat.pos_iff_ne_zero]
  simp [← BitVec.toNat_inj]

/-! ### Little-endian fields -/

@[simp] theorem u32le_length (v : Word) : (u32le v).length = 4 := rfl

/-- Reading a little-endian field gives the word that was written (R11). -/
@[simp] theorem rdU32le_u32le (v : Word) :
    rdU32le (v.extractLsb' 0 8) (v.extractLsb' 8 8) (v.extractLsb' 16 8) (v.extractLsb' 24 8) = v := by
  apply BitVec.eq_of_toNat_eq
  have hv := v.isLt
  simp only [rdU32le, BitVec.extractLsb'_toNat, BitVec.toNat_ofNat, Nat.shiftRight_eq_div_pow]
  omega

/-- The value of a little-endian field (R11). -/
theorem rdU32le_toNat (b0 b1 b2 b3 : Byte) :
    (rdU32le b0 b1 b2 b3).toNat = b0.toNat + 256 * b1.toNat + 65536 * b2.toNat + 16777216 * b3.toNat := by
  have h0 := b0.isLt
  have h1 := b1.isLt
  have h2 := b2.isLt
  have h3 := b3.isLt
  simp only [rdU32le, BitVec.toNat_ofNat]
  omega

/-! ### Bits of a byte -/

@[simp] theorem unpackByte_length (v : Byte) : (unpackByte v).length = 8 := rfl

/-- A full byte gives back its 8 bits (R118, R134). -/
theorem unpackByte_packByte_full (b0 b1 b2 b3 b4 b5 b6 b7 : Bool) :
    unpackByte (packByte [b0, b1, b2, b3, b4, b5, b6, b7]) = [b0, b1, b2, b3, b4, b5, b6, b7] := by
  revert b0 b1 b2 b3 b4 b5 b6 b7
  decide

end Sys2Proof.Machine
end

