-- ==== Sys2Proof/Laws/Container.lean ====
section
/-! SUPPORT. One lemma for each stage that packs bits, writes a container or reads one (41_encoder.md rules R118 and R119,
42_decoder.md rule R131), saying what it answers. -/

namespace Sys2Proof.Machine

theorem byteAt_cons (n : Byte) (body : List Byte) (k : Nat) : byteAt (n :: body) (k + 1) = byteAt body k := rfl

theorem wordAt_cons (n : Byte) (body : List Byte) (k : Nat) : wordAt (n :: body) (k + 1) = wordAt body k := rfl

theorem byteAt_drop (l : List Byte) (k o : Nat) : byteAt (l.drop k) o = byteAt l (k + o) := by
  simp [byteAt, List.getD]

theorem wordAt_drop (l : List Byte) (k o : Nat) : wordAt (l.drop k) o = wordAt l (k + o) := by
  simp [wordAt, byteAt_drop, Nat.add_assoc]

/-- The number of payload bytes (R118). -/
theorem packBits_length : ∀ bits : Bits, (packBits bits).length = payloadLength (bits.length / 8) (bits.length % 8)
  | b0 :: b1 :: b2 :: b3 :: b4 :: b5 :: b6 :: b7 :: rest => by
    have ih := packBits_length rest
    have h1 : (b0 :: b1 :: b2 :: b3 :: b4 :: b5 :: b6 :: b7 :: rest).length / 8 = rest.length / 8 + 1 := by
      simp; omega
    have h2 : (b0 :: b1 :: b2 :: b3 :: b4 :: b5 :: b6 :: b7 :: rest).length % 8 = rest.length % 8 := by
      simp; omega
    rw [h1, h2]
    simp [packBits, ih, payloadLength]; omega
  | [] => by simp [packBits, payloadLength]
  | [b0] => by simp [packBits, payloadLength]
  | [b0, b1] => by simp [packBits, payloadLength]
  | [b0, b1, b2] => by simp [packBits, payloadLength]
  | [b0, b1, b2, b3] => by simp [packBits, payloadLength]
  | [b0, b1, b2, b3, b4] => by simp [packBits, payloadLength]
  | [b0, b1, b2, b3, b4, b5] => by simp [packBits, payloadLength]
  | [b0, b1, b2, b3, b4, b5, b6] => by simp [packBits, payloadLength]

/-- The five bytes of the first pair, and the other pairs (R119). -/
theorem writePairs_cons (F : FreqTable) (a : Byte) (A : List Byte) :
    writePairs F (a :: A) = a :: (FreqTable.at F a).extractLsb' 0 8 :: (FreqTable.at F a).extractLsb' 8 8 ::
      (FreqTable.at F a).extractLsb' 16 8 :: (FreqTable.at F a).extractLsb' 24 8 :: writePairs F A := rfl

theorem writePairs_length (F : FreqTable) (A : List Byte) : (writePairs F A).length = 5 * A.length := by
  induction A with
  | nil => rfl
  | cons a A ih => rw [writePairs_cons]; simp [ih]; omega

/-- A container as its first byte, its pairs, and the bytes after them (R119). -/
theorem writeContainer_eq (A : List Byte) (F : FreqTable) (bc md : Nat) (P : List Byte) :
    writeContainer A F bc md P = BitVec.ofNat 8 A.length :: (writePairs F A ++
      ((BitVec.ofNat 32 bc).extractLsb' 0 8 :: (BitVec.ofNat 32 bc).extractLsb' 8 8 ::
        (BitVec.ofNat 32 bc).extractLsb' 16 8 :: (BitVec.ofNat 32 bc).extractLsb' 24 8 ::
        BitVec.ofNat 8 md :: P)) := by
  simp [writeContainer, u32le]

theorem writeContainer_length (A : List Byte) (F : FreqTable) (bc md : Nat) (P : List Byte) :
    (writeContainer A F bc md P).length = 6 + 5 * A.length + P.length := by
  rw [writeContainer_eq]; simp [writePairs_length]; omega

/-- What reading `n` pairs answers: the bytes after them, and the table: the pairs' frequencies at the pairs' symbols, and
every other entry as it was. -/
theorem readPairs_some {n : Nat} {body rest' : List Byte} {F F' : FreqTable}
    (h : readPairs n body F = some (F', rest')) :
    rest' = body.drop (5 * n) ∧
    (∀ i, i < n → FreqTable.at F' (byteAt body (5 * i)) = wordAt body (1 + 5 * i)) ∧
    (∀ x, (∀ i, i < n → byteAt body (5 * i) ≠ x) → FreqTable.at F' x = FreqTable.at F x) ∧
    (∀ x, FreqTable.at F x ≠ 0#32 → FreqTable.at F' x = FreqTable.at F x) := by
  induction n generalizing body F with
  | zero => simp [readPairs] at h; simp [h]
  | succ n ih =>
    match body, h with
    | s :: b0 :: b1 :: b2 :: b3 :: rest, h =>
      have e0 : byteAt (s :: b0 :: b1 :: b2 :: b3 :: rest) (5 * 0) = s := rfl
      have w0 : wordAt (s :: b0 :: b1 :: b2 :: b3 :: rest) (1 + 5 * 0) = rdU32le b0 b1 b2 b3 := rfl
      have e1 : ∀ i, byteAt (s :: b0 :: b1 :: b2 :: b3 :: rest) (5 * (i + 1)) = byteAt rest (5 * i) := by
        intro i; rw [show 5 * (i + 1) = 5 * i + 1 + 1 + 1 + 1 + 1 by omega]; rfl
      have w1 : ∀ i, wordAt (s :: b0 :: b1 :: b2 :: b3 :: rest) (1 + 5 * (i + 1)) = wordAt rest (1 + 5 * i) := by
        intro i; rw [show 1 + 5 * (i + 1) = 1 + 5 * i + 1 + 1 + 1 + 1 + 1 by omega]; rfl
      simp only [readPairs] at h
      split at h
      · cases h
      · rename_i hc
        push Not at hc
        obtain ⟨h1, h2, h3, h4⟩ := ih h
        refine ⟨?_, fun i hi => ?_, fun x hx => ?_, fun x hx => ?_⟩
        · rw [h1, show 5 * (n + 1) = 5 * n + 1 + 1 + 1 + 1 + 1 by omega]; rfl
        · rcases i with _ | i
          · rw [e0, w0, h4 s (by rw [put_at, if_pos rfl]; exact hc.1), put_at, if_pos rfl]
          · rw [e1, w1]; exact h2 i (by omega)
        · have h0 := hx 0 (by omega)
          rw [e0] at h0
          rw [h3 x fun i hi => by have := hx (i + 1) (by omega); rwa [e1] at this, put_at, if_neg h0]
        · have hne : s ≠ x := by rintro rfl; exact hx hc.2
          rw [h4 x (by rw [put_at, if_neg hne]; exact hx), put_at, if_neg hne]

/-- What ReadTable answers for the bytes `n :: body` (R131). -/
theorem readTable_some {n : Byte} {body : List Byte} {t : Table} (h : readTable (n :: body) = some t) :
    ∃ F c0 c1 c2 c3 md payload,
      readPairs n.toNat body (Vector.replicate 256 0#32) = some (F, c0 :: c1 :: c2 :: c3 :: md :: payload) ∧
      t = { n := n, F := F, bc := rdU32le c0 c1 c2 c3, md := md, payload := payload } ∧
      n ≠ 0#8 ∧ md.toNat ≤ 7 ∧
      (n :: body).length = 6 + 5 * n.toNat + payloadLength (rdU32le c0 c1 c2 c3).toNat md.toNat := by
  simp only [readTable] at h
  split at h
  · cases h
  · rename_i hn
    split at h
    · cases h
    · split at h
      · rename_i F c0 c1 c2 c3 md payload hp
        split at h
        · cases h
        · split at h
          · cases h
          · rename_i h2 h3
            cases h
            exact ⟨F, c0, c1, c2, c3, md, payload, hp, rfl, hn, by omega, by simpa using h3⟩
      · cases h

end Sys2Proof.Machine
end

