-- ==== Sys2Proof/Laws/Memory.lean ====
section
/-! SUPPORT. What the buffer operations do: a read after a write, and that every operation keeps the canonical form and
stays inside the buffer. -/

namespace Sys2Proof.Machine

theorem lookupCell_insertCell_same (k : Nat) (v : Byte) (cs : List Host.Cell) :
    lookupCell k (insertCell k v cs) = some v := by
  induction cs with
  | nil => simp [insertCell, lookupCell]
  | cons c cs ih =>
    obtain ⟨a, w⟩ := c
    simp only [insertCell]
    split
    · simp [lookupCell]
    · split
      · simp [lookupCell]
      · rename_i hka
        simp [lookupCell, Ne.symm hka, ih]

theorem lookupCell_insertCell_other {k j : Nat} (h : j ≠ k) (v : Byte) (cs : List Host.Cell) :
    lookupCell j (insertCell k v cs) = lookupCell j cs := by
  induction cs with
  | nil => simp [insertCell, lookupCell, Ne.symm h]
  | cons c cs ih =>
    obtain ⟨a, w⟩ := c
    simp only [insertCell]
    split
    · simp [lookupCell, Ne.symm h]
    · split
      · rename_i hka
        subst hka
        simp [lookupCell, Ne.symm h]
      · simp [lookupCell, ih]

/-- A read after a write to the same offset gives the byte written. -/
@[simp] theorem read_write_same (m : Memory) (k : Nat) (v : Byte) : (m.write k v).read k = v := by
  simp [Memory.read, Memory.write, lookupCell_insertCell_same]

/-- A write leaves every other offset alone. -/
theorem read_write_other (m : Memory) {k j : Nat} (h : j ≠ k) (v : Byte) : (m.write k v).read j = m.read j := by
  simp [Memory.read, Memory.write, lookupCell_insertCell_other h]

theorem mem_insertCell {k : Nat} {v : Byte} {cs : List Host.Cell} {c : Host.Cell} (h : c ∈ insertCell k v cs) :
    c = (k, v) ∨ c ∈ cs := by
  induction cs with
  | nil => simpa [insertCell] using h
  | cons d cs ih =>
    obtain ⟨a, w⟩ := d
    simp only [insertCell] at h
    split at h
    · simpa using h
    · split at h
      · rcases List.mem_cons.1 h with h | h
        · exact .inl h
        · exact .inr (List.mem_cons_of_mem _ h)
      · rcases List.mem_cons.1 h with h | h
        · exact .inr (h ▸ List.mem_cons_self)
        · exact (ih h).imp id (List.mem_cons_of_mem _)

/-- A write keeps the canonical form. -/
theorem write_wf {m : Memory} (h : m.wf) (k : Nat) (v : Byte) : (m.write k v).wf := by
  obtain ⟨cs, d⟩ := m
  simp only [Memory.wf, Memory.write] at h ⊢
  induction cs with
  | nil => simp [insertCell]
  | cons c cs ih =>
    obtain ⟨a, w⟩ := c
    obtain ⟨hc, hcs⟩ := List.pairwise_cons.1 h
    simp only [insertCell]
    split
    · rename_i hka
      refine List.pairwise_cons.2 ⟨?_, h⟩
      intro x hx
      rcases List.mem_cons.1 hx with rfl | hx
      · exact hka
      · exact hka.trans (hc x hx)
    · split
      · rename_i hka
        subst hka
        exact List.pairwise_cons.2 ⟨hc, hcs⟩
      · refine List.pairwise_cons.2 ⟨?_, ih hcs⟩
        intro x hx
        rcases mem_insertCell hx with rfl | hx
        · simp only; omega
        · exact hc x hx

/-- A write inside the buffer stays inside it. -/
theorem write_within {m : Memory} {cap k : Nat} (h : m.within cap) (hk : k < cap) (v : Byte) :
    (m.write k v).within cap := by
  intro c hc
  rcases mem_insertCell hc with rfl | hc
  · exact hk
  · exact h c hc

theorem lookupCell_append (k : Nat) (cs ds : List Host.Cell) :
    lookupCell k (cs ++ ds) = (lookupCell k cs).or (lookupCell k ds) := by
  induction cs with
  | nil => simp [lookupCell]
  | cons c cs ih =>
    obtain ⟨a, w⟩ := c
    simp only [List.cons_append, lookupCell]
    split <;> simp [ih]

theorem lookupCell_cellsFrom (bs : List Byte) (j k : Nat) :
    lookupCell k (cellsFrom j bs) = if j ≤ k then bs[k - j]? else none := by
  induction bs generalizing j with
  | nil => simp [cellsFrom, lookupCell]
  | cons b bs ih =>
    simp only [cellsFrom, lookupCell, ih]
    rcases lt_trichotomy j k with h | h | h
    · have : k - j = (k - (j + 1)) + 1 := by omega
      rw [this]
      simp [h.ne, h.le, Nat.succ_le_of_lt h]
    · subst h; simp
    · simp [h.ne', Nat.not_le.2 h, show ¬ j + 1 ≤ k by omega]

theorem lookupCell_filter_ge {n k : Nat} (h : n ≤ k) (cs : List Host.Cell) :
    lookupCell k (cs.filter fun c => n ≤ c.1) = lookupCell k cs := by
  induction cs with
  | nil => rfl
  | cons c cs ih =>
    obtain ⟨a, w⟩ := c
    by_cases hna : n ≤ a
    · simp [hna, lookupCell, ih]
    · have : a ≠ k := by omega
      simp [hna, lookupCell, ih, this]

/-- The bytes stored are read back. -/
theorem read_storePrefix_lt (m : Memory) {bs : List Byte} {k : Nat} (h : k < bs.length) :
    (m.storePrefix bs).read k = bs[k] := by
  simp [Memory.read, Memory.storePrefix, lookupCell_append, lookupCell_cellsFrom, h]

/-- The bytes beyond those stored are unchanged (R36). -/
theorem read_storePrefix_ge (m : Memory) {bs : List Byte} {k : Nat} (h : bs.length ≤ k) :
    (m.storePrefix bs).read k = m.read k := by
  simp [Memory.read, Memory.storePrefix, lookupCell_append, lookupCell_cellsFrom, h, lookupCell_filter_ge h]

theorem mem_cellsFrom {bs : List Byte} {j : Nat} {c : Host.Cell} (h : c ∈ cellsFrom j bs) :
    j ≤ c.1 ∧ c.1 < j + bs.length := by
  induction bs generalizing j with
  | nil => simp [cellsFrom] at h
  | cons b bs ih =>
    rcases List.mem_cons.1 h with rfl | h
    · simp
    · have := ih h
      simp only [List.length_cons]
      omega

theorem cellsFrom_rising (bs : List Byte) (j : Nat) : (cellsFrom j bs).Pairwise fun x y => x.1 < y.1 := by
  induction bs generalizing j with
  | nil => simp [cellsFrom]
  | cons b bs ih =>
    refine List.pairwise_cons.2 ⟨?_, ih (j + 1)⟩
    intro c hc
    have := mem_cellsFrom hc
    simp only
    omega

/-- Storing a prefix keeps the canonical form. -/
theorem storePrefix_wf {m : Memory} (h : m.wf) (bs : List Byte) : (m.storePrefix bs).wf := by
  refine List.pairwise_append.2 ⟨cellsFrom_rising bs 0, List.Pairwise.filter _ h, ?_⟩
  intro c hc d hd
  have h1 := mem_cellsFrom hc
  have h2 := (List.mem_filter.1 hd).2
  simp only [decide_eq_true_eq] at h2
  omega

/-- Storing a prefix that fits stays inside the buffer. -/
theorem storePrefix_within {m : Memory} {cap : Nat} (h : m.within cap) {bs : List Byte} (hb : bs.length ≤ cap) :
    (m.storePrefix bs).within cap := by
  intro c hc
  rcases List.mem_append.1 hc with hc | hc
  · have := mem_cellsFrom hc; omega
  · exact h c (List.mem_filter.1 hc).1

@[simp] theorem unspecified_wf (d : Nat) : (Memory.unspecified d).wf := List.Pairwise.nil

@[simp] theorem unspecified_within (d cap : Nat) : (Memory.unspecified d).within cap := by
  intro c hc; cases hc

@[simp] theorem read_unspecified (d k : Nat) : (Memory.unspecified d).read k = Config.freeByte d k := rfl

@[simp] theorem write_fill (m : Memory) (k : Nat) (v : Byte) : (m.write k v).fill = m.fill := rfl

@[simp] theorem storePrefix_fill (m : Memory) (bs : List Byte) : (m.storePrefix bs).fill = m.fill := rfl

@[simp] theorem unspecified_fill (d : Nat) : (Memory.unspecified d).fill = d := rfl

@[simp] theorem bytes_length (m : Memory) (n : Nat) : (m.bytes n).length = n := by simp [Memory.bytes]

theorem bytes_getElem (m : Memory) {n k : Nat} (h : k < (m.bytes n).length) : (m.bytes n)[k] = m.read k := by
  simp [Memory.bytes]

/-- The first bytes of a buffer are those stored there. -/
theorem bytes_storePrefix (m : Memory) (bs : List Byte) : (m.storePrefix bs).bytes bs.length = bs := by
  apply List.ext_getElem
  · simp
  · intro k h1 h2
    rw [bytes_getElem, read_storePrefix_lt m h2]

end Sys2Proof.Machine
end

