-- ==== Sys2Proof/Laws/PerInstr.lean ====
section
/-! SUPPORT. Statements made instruction by instruction about the commands as words (30_encoding.md rules R70 and R71). -/

/-- The words that stand for a command are those with its value in CMD: bits [31:2] are ignored (R70, R72). -/
def Sys2Proof.Laws.CommandWords.Statement (i : Sys2Proof.Instr) : Prop :=
  ∀ w : Sys2Proof.Word, Sys2Proof.decode w = i ↔ w.toNat % 4 = (Sys2Proof.encode i).toNat

theorem Sys2Proof.Laws.CommandWords.decode_cases (w : Sys2Proof.Word) :
    (w.toNat % 4 = 0 ∧ Sys2Proof.decode w = .nop) ∨ (w.toNat % 4 = 1 ∧ Sys2Proof.decode w = .encode) ∨
    (w.toNat % 4 = 2 ∧ Sys2Proof.decode w = .decode) ∨ (w.toNat % 4 = 3 ∧ Sys2Proof.decode w = .reserved) := by
  have hc : (Sys2Proof.cmdField w).toNat = w.toNat % 4 := by
    simp [Sys2Proof.cmdField, BitVec.extractLsb'_toNat]
  have h4 : w.toNat % 4 < 4 := Nat.mod_lt _ (by decide)
  simp only [Sys2Proof.decode, hc]
  generalize w.toNat % 4 = k at h4
  have hk : k = 0 ∨ k = 1 ∨ k = 2 ∨ k = 3 := by omega
  rcases hk with rfl | rfl | rfl | rfl <;> simp

theorem Sys2Proof.Laws.CommandWords.nop : Sys2Proof.Laws.CommandWords.Statement .nop := by
  intro w
  rcases Sys2Proof.Laws.CommandWords.decode_cases w with ⟨h, e⟩ | ⟨h, e⟩ | ⟨h, e⟩ | ⟨h, e⟩ <;>
    simp [h, e, Sys2Proof.encode]

theorem Sys2Proof.Laws.CommandWords.encode : Sys2Proof.Laws.CommandWords.Statement .encode := by
  intro w
  rcases Sys2Proof.Laws.CommandWords.decode_cases w with ⟨h, e⟩ | ⟨h, e⟩ | ⟨h, e⟩ | ⟨h, e⟩ <;>
    simp [h, e, Sys2Proof.encode]

theorem Sys2Proof.Laws.CommandWords.decode : Sys2Proof.Laws.CommandWords.Statement .decode := by
  intro w
  rcases Sys2Proof.Laws.CommandWords.decode_cases w with ⟨h, e⟩ | ⟨h, e⟩ | ⟨h, e⟩ | ⟨h, e⟩ <;>
    simp [h, e, Sys2Proof.encode]

theorem Sys2Proof.Laws.CommandWords.reserved : Sys2Proof.Laws.CommandWords.Statement .reserved := by
  intro w
  rcases Sys2Proof.Laws.CommandWords.decode_cases w with ⟨h, e⟩ | ⟨h, e⟩ | ⟨h, e⟩ | ⟨h, e⟩ <;>
    simp [h, e, Sys2Proof.encode]
end

