-- ==== Sys2Proof/Laws/State.lean ====
section
/-! SUPPORT. One lemma per field per update of the state, true by rfl, so that no proof unfolds a record update. -/

namespace Sys2Proof.Machine

section setBusy
/-! The state after BUSY (R95). -/
variable (s : State)

@[simp] theorem setBusy_caps : (setBusy s).caps = s.caps := rfl
@[simp] theorem setBusy_phase : (setBusy s).phase = .busy := rfl
@[simp] theorem setBusy_err : (setBusy s).err = none := rfl
@[simp] theorem setBusy_inLen : (setBusy s).inLen = s.inLen := rfl
@[simp] theorem setBusy_outLen : (setBusy s).outLen = s.outLen := rfl
@[simp] theorem setBusy_symCount : (setBusy s).symCount = s.symCount := rfl
@[simp] theorem setBusy_byteCount : (setBusy s).byteCount = s.byteCount := rfl
@[simp] theorem setBusy_modulo : (setBusy s).modulo = s.modulo := rfl
@[simp] theorem setBusy_freq : (setBusy s).freq = s.freq := rfl
@[simp] theorem setBusy_codeLen : (setBusy s).codeLen = s.codeLen := rfl
@[simp] theorem setBusy_inBuf : (setBusy s).inBuf = s.inBuf := rfl
@[simp] theorem setBusy_outBuf : (setBusy s).outBuf = s.outBuf := rfl
@[simp] theorem setBusy_cmdl : (setBusy s).cmdl = s.cmdl := rfl
@[simp] theorem setBusy_hazard : (setBusy s).hazard = s.hazard := rfl
@[simp] theorem setBusy_draws : (setBusy s).draws = s.draws := rfl
@[simp] theorem setBusy_pending : (setBusy s).pending = s.pending := rfl
@[simp] theorem setBusy_turns : (setBusy s).turns = s.turns := rfl
@[simp] theorem setBusy_seen : (setBusy s).seen = s.seen := rfl

end setBusy

section setDone
/-! The state after DONE (R98). -/
variable (s : State)

@[simp] theorem setDone_caps : (setDone s).caps = s.caps := rfl
@[simp] theorem setDone_phase : (setDone s).phase = .done := rfl
@[simp] theorem setDone_err : (setDone s).err = none := rfl
@[simp] theorem setDone_inLen : (setDone s).inLen = s.inLen := rfl
@[simp] theorem setDone_outLen : (setDone s).outLen = s.outLen := rfl
@[simp] theorem setDone_symCount : (setDone s).symCount = s.symCount := rfl
@[simp] theorem setDone_byteCount : (setDone s).byteCount = s.byteCount := rfl
@[simp] theorem setDone_modulo : (setDone s).modulo = s.modulo := rfl
@[simp] theorem setDone_freq : (setDone s).freq = s.freq := rfl
@[simp] theorem setDone_codeLen : (setDone s).codeLen = s.codeLen := rfl
@[simp] theorem setDone_inBuf : (setDone s).inBuf = s.inBuf := rfl
@[simp] theorem setDone_outBuf : (setDone s).outBuf = s.outBuf := rfl
@[simp] theorem setDone_cmdl : (setDone s).cmdl = s.cmdl := rfl
@[simp] theorem setDone_hazard : (setDone s).hazard = s.hazard := rfl
@[simp] theorem setDone_draws : (setDone s).draws = s.draws := rfl
@[simp] theorem setDone_pending : (setDone s).pending = s.pending := rfl
@[simp] theorem setDone_turns : (setDone s).turns = s.turns := rfl
@[simp] theorem setDone_seen : (setDone s).seen = s.seen := rfl

end setDone

section setError
/-! The state after ERROR (R97, R153). -/
variable (e : ErrorCode) (s : State)

@[simp] theorem setError_caps : (setError e s).caps = s.caps := rfl
@[simp] theorem setError_phase : (setError e s).phase = .error := rfl
@[simp] theorem setError_err : (setError e s).err = some e := rfl
@[simp] theorem setError_inLen : (setError e s).inLen = s.inLen := rfl
@[simp] theorem setError_outLen : (setError e s).outLen = s.outLen := rfl
@[simp] theorem setError_symCount : (setError e s).symCount = s.symCount := rfl
@[simp] theorem setError_byteCount : (setError e s).byteCount = s.byteCount := rfl
@[simp] theorem setError_modulo : (setError e s).modulo = s.modulo := rfl
@[simp] theorem setError_freq : (setError e s).freq = s.freq := rfl
@[simp] theorem setError_codeLen : (setError e s).codeLen = s.codeLen := rfl
@[simp] theorem setError_inBuf : (setError e s).inBuf = s.inBuf := rfl
@[simp] theorem setError_outBuf : (setError e s).outBuf = s.outBuf := rfl
@[simp] theorem setError_cmdl : (setError e s).cmdl = s.cmdl := rfl
@[simp] theorem setError_hazard : (setError e s).hazard = s.hazard := rfl
@[simp] theorem setError_draws : (setError e s).draws = s.draws := rfl
@[simp] theorem setError_pending : (setError e s).pending = s.pending := rfl
@[simp] theorem setError_turns : (setError e s).turns = s.turns := rfl
@[simp] theorem setError_seen : (setError e s).seen = s.seen := rfl

end setError

section see
/-! The state after a value HOST reads (R83). -/
variable (s : State) (v : ReadValue)

@[simp] theorem see_caps : (s.see v).caps = s.caps := rfl
@[simp] theorem see_phase : (s.see v).phase = s.phase := rfl
@[simp] theorem see_err : (s.see v).err = s.err := rfl
@[simp] theorem see_inLen : (s.see v).inLen = s.inLen := rfl
@[simp] theorem see_outLen : (s.see v).outLen = s.outLen := rfl
@[simp] theorem see_symCount : (s.see v).symCount = s.symCount := rfl
@[simp] theorem see_byteCount : (s.see v).byteCount = s.byteCount := rfl
@[simp] theorem see_modulo : (s.see v).modulo = s.modulo := rfl
@[simp] theorem see_freq : (s.see v).freq = s.freq := rfl
@[simp] theorem see_codeLen : (s.see v).codeLen = s.codeLen := rfl
@[simp] theorem see_inBuf : (s.see v).inBuf = s.inBuf := rfl
@[simp] theorem see_outBuf : (s.see v).outBuf = s.outBuf := rfl
@[simp] theorem see_cmdl : (s.see v).cmdl = s.cmdl := rfl
@[simp] theorem see_hazard : (s.see v).hazard = s.hazard := rfl
@[simp] theorem see_draws : (s.see v).draws = s.draws := rfl
@[simp] theorem see_pending : (s.see v).pending = s.pending := rfl
@[simp] theorem see_turns : (s.see v).turns = s.turns := rfl
@[simp] theorem see_seen : (s.see v).seen = s.seen ++ [v] := rfl

end see

section drawn
/-! The state after a draw (log entry 4). -/
variable (s : State)

@[simp] theorem drawn_caps : s.drawn.caps = s.caps := rfl
@[simp] theorem drawn_phase : s.drawn.phase = s.phase := rfl
@[simp] theorem drawn_err : s.drawn.err = s.err := rfl
@[simp] theorem drawn_inLen : s.drawn.inLen = s.inLen := rfl
@[simp] theorem drawn_outLen : s.drawn.outLen = s.outLen := rfl
@[simp] theorem drawn_symCount : s.drawn.symCount = s.symCount := rfl
@[simp] theorem drawn_byteCount : s.drawn.byteCount = s.byteCount := rfl
@[simp] theorem drawn_modulo : s.drawn.modulo = s.modulo := rfl
@[simp] theorem drawn_freq : s.drawn.freq = s.freq := rfl
@[simp] theorem drawn_codeLen : s.drawn.codeLen = s.codeLen := rfl
@[simp] theorem drawn_inBuf : s.drawn.inBuf = s.inBuf := rfl
@[simp] theorem drawn_outBuf : s.drawn.outBuf = s.outBuf := rfl
@[simp] theorem drawn_cmdl : s.drawn.cmdl = s.cmdl := rfl
@[simp] theorem drawn_hazard : s.drawn.hazard = s.hazard := rfl
@[simp] theorem drawn_draws : s.drawn.draws = s.draws + 1 := rfl
@[simp] theorem drawn_pending : s.drawn.pending = s.pending := rfl
@[simp] theorem drawn_turns : s.drawn.turns = s.turns := rfl
@[simp] theorem drawn_seen : s.drawn.seen = s.seen := rfl

end drawn

section markHazard
/-! The state after the HAZARD mark (R46). -/
variable (s : State)

@[simp] theorem markHazard_caps : s.markHazard.caps = s.caps := rfl
@[simp] theorem markHazard_phase : s.markHazard.phase = s.phase := rfl
@[simp] theorem markHazard_err : s.markHazard.err = s.err := rfl
@[simp] theorem markHazard_inLen : s.markHazard.inLen = s.inLen := rfl
@[simp] theorem markHazard_outLen : s.markHazard.outLen = s.outLen := rfl
@[simp] theorem markHazard_symCount : s.markHazard.symCount = s.symCount := rfl
@[simp] theorem markHazard_byteCount : s.markHazard.byteCount = s.byteCount := rfl
@[simp] theorem markHazard_modulo : s.markHazard.modulo = s.modulo := rfl
@[simp] theorem markHazard_freq : s.markHazard.freq = s.freq := rfl
@[simp] theorem markHazard_codeLen : s.markHazard.codeLen = s.codeLen := rfl
@[simp] theorem markHazard_inBuf : s.markHazard.inBuf = s.inBuf := rfl
@[simp] theorem markHazard_outBuf : s.markHazard.outBuf = s.outBuf := rfl
@[simp] theorem markHazard_cmdl : s.markHazard.cmdl = s.cmdl := rfl
@[simp] theorem markHazard_hazard : s.markHazard.hazard = (s.hazard || s.phase == .busy) := rfl
@[simp] theorem markHazard_draws : s.markHazard.draws = s.draws := rfl
@[simp] theorem markHazard_pending : s.markHazard.pending = s.pending := rfl
@[simp] theorem markHazard_turns : s.markHazard.turns = s.turns := rfl
@[simp] theorem markHazard_seen : s.markHazard.seen = s.seen := rfl

end markHazard

section hostWriteIn
/-! The state after a host write to IN (R35, R176). -/
variable (off : Word) (b : Byte) (s : State)

@[simp] theorem hostWriteIn_caps : (hostWriteIn off b s).caps = s.caps := rfl
@[simp] theorem hostWriteIn_phase : (hostWriteIn off b s).phase = s.phase := rfl
@[simp] theorem hostWriteIn_err : (hostWriteIn off b s).err = s.err := rfl
@[simp] theorem hostWriteIn_inLen : (hostWriteIn off b s).inLen = s.inLen := rfl
@[simp] theorem hostWriteIn_outLen : (hostWriteIn off b s).outLen = s.outLen := rfl
@[simp] theorem hostWriteIn_symCount : (hostWriteIn off b s).symCount = s.symCount := rfl
@[simp] theorem hostWriteIn_byteCount : (hostWriteIn off b s).byteCount = s.byteCount := rfl
@[simp] theorem hostWriteIn_modulo : (hostWriteIn off b s).modulo = s.modulo := rfl
@[simp] theorem hostWriteIn_freq : (hostWriteIn off b s).freq = s.freq := rfl
@[simp] theorem hostWriteIn_codeLen : (hostWriteIn off b s).codeLen = s.codeLen := rfl
@[simp] theorem hostWriteIn_inBuf : (hostWriteIn off b s).inBuf = s.inBuf.write off.toNat b := rfl
@[simp] theorem hostWriteIn_outBuf : (hostWriteIn off b s).outBuf = s.outBuf := rfl
@[simp] theorem hostWriteIn_cmdl : (hostWriteIn off b s).cmdl = s.cmdl := rfl
@[simp] theorem hostWriteIn_hazard : (hostWriteIn off b s).hazard = (s.hazard || s.phase == .busy) := rfl
@[simp] theorem hostWriteIn_draws : (hostWriteIn off b s).draws = s.draws := rfl
@[simp] theorem hostWriteIn_pending : (hostWriteIn off b s).pending = s.pending := rfl
@[simp] theorem hostWriteIn_turns : (hostWriteIn off b s).turns = s.turns := rfl
@[simp] theorem hostWriteIn_seen : (hostWriteIn off b s).seen = s.seen := rfl

end hostWriteIn

section hostWriteInLen
/-! The state after a host write to IN_LEN (R27, R176). -/
variable (w : Word) (s : State)

@[simp] theorem hostWriteInLen_caps : (hostWriteInLen w s).caps = s.caps := rfl
@[simp] theorem hostWriteInLen_phase : (hostWriteInLen w s).phase = s.phase := rfl
@[simp] theorem hostWriteInLen_err : (hostWriteInLen w s).err = s.err := rfl
@[simp] theorem hostWriteInLen_inLen : (hostWriteInLen w s).inLen = w := rfl
@[simp] theorem hostWriteInLen_outLen : (hostWriteInLen w s).outLen = s.outLen := rfl
@[simp] theorem hostWriteInLen_symCount : (hostWriteInLen w s).symCount = s.symCount := rfl
@[simp] theorem hostWriteInLen_byteCount : (hostWriteInLen w s).byteCount = s.byteCount := rfl
@[simp] theorem hostWriteInLen_modulo : (hostWriteInLen w s).modulo = s.modulo := rfl
@[simp] theorem hostWriteInLen_freq : (hostWriteInLen w s).freq = s.freq := rfl
@[simp] theorem hostWriteInLen_codeLen : (hostWriteInLen w s).codeLen = s.codeLen := rfl
@[simp] theorem hostWriteInLen_inBuf : (hostWriteInLen w s).inBuf = s.inBuf := rfl
@[simp] theorem hostWriteInLen_outBuf : (hostWriteInLen w s).outBuf = s.outBuf := rfl
@[simp] theorem hostWriteInLen_cmdl : (hostWriteInLen w s).cmdl = s.cmdl := rfl
@[simp] theorem hostWriteInLen_hazard : (hostWriteInLen w s).hazard = (s.hazard || s.phase == .busy) := rfl
@[simp] theorem hostWriteInLen_draws : (hostWriteInLen w s).draws = s.draws := rfl
@[simp] theorem hostWriteInLen_pending : (hostWriteInLen w s).pending = s.pending := rfl
@[simp] theorem hostWriteInLen_turns : (hostWriteInLen w s).turns = s.turns := rfl
@[simp] theorem hostWriteInLen_seen : (hostWriteInLen w s).seen = s.seen := rfl

end hostWriteInLen

section finishCommand
/-! The state after a successful completion (R98). -/
variable (r : Result) (s : State)

@[simp] theorem finishCommand_caps : (finishCommand r s).caps = s.caps := rfl
@[simp] theorem finishCommand_phase : (finishCommand r s).phase = .done := rfl
@[simp] theorem finishCommand_err : (finishCommand r s).err = none := rfl
@[simp] theorem finishCommand_inLen : (finishCommand r s).inLen = s.inLen := rfl
@[simp] theorem finishCommand_outLen : (finishCommand r s).outLen = BitVec.ofNat 32 r.out.length := rfl
@[simp] theorem finishCommand_symCount : (finishCommand r s).symCount = r.n := rfl
@[simp] theorem finishCommand_byteCount : (finishCommand r s).byteCount = r.byteCount := rfl
@[simp] theorem finishCommand_modulo : (finishCommand r s).modulo = r.modulo := rfl
@[simp] theorem finishCommand_freq : (finishCommand r s).freq = r.freq := rfl
@[simp] theorem finishCommand_codeLen : (finishCommand r s).codeLen = r.depth := rfl
@[simp] theorem finishCommand_inBuf : (finishCommand r s).inBuf = s.inBuf := rfl
@[simp] theorem finishCommand_outBuf : (finishCommand r s).outBuf = s.outBuf.storePrefix r.out := rfl
@[simp] theorem finishCommand_cmdl : (finishCommand r s).cmdl = s.cmdl := rfl
@[simp] theorem finishCommand_hazard : (finishCommand r s).hazard = s.hazard := rfl
@[simp] theorem finishCommand_draws : (finishCommand r s).draws = s.draws := rfl
@[simp] theorem finishCommand_pending : (finishCommand r s).pending = s.pending := rfl
@[simp] theorem finishCommand_turns : (finishCommand r s).turns = s.turns := rfl
@[simp] theorem finishCommand_seen : (finishCommand r s).seen = s.seen := rfl

end finishCommand

section errorCompletion
/-! The state after an error completion (R153). -/
variable (e : ErrorCode) (s : State)

@[simp] theorem errorCompletion_caps : (errorCompletion e s).caps = s.caps := rfl
@[simp] theorem errorCompletion_phase : (errorCompletion e s).phase = .error := rfl
@[simp] theorem errorCompletion_err : (errorCompletion e s).err = some e := rfl
@[simp] theorem errorCompletion_inLen : (errorCompletion e s).inLen = s.inLen := rfl
@[simp] theorem errorCompletion_outLen : (errorCompletion e s).outLen = 0#32 := rfl
@[simp] theorem errorCompletion_symCount : (errorCompletion e s).symCount = (Config.freeWord s.draws 0x010).truncate 8 := rfl
@[simp] theorem errorCompletion_byteCount : (errorCompletion e s).byteCount = Config.freeWord s.draws 0x014 := rfl
@[simp] theorem errorCompletion_modulo : (errorCompletion e s).modulo = (Config.freeWord s.draws 0x018).truncate 3 := rfl
@[simp] theorem errorCompletion_freq : (errorCompletion e s).freq = tableOf fun k => Config.freeWord s.draws (0x400 + 4 * k.toNat) := rfl
@[simp] theorem errorCompletion_codeLen : (errorCompletion e s).codeLen = tableOf fun k => (Config.freeWord s.draws (0x800 + 4 * k.toNat)).truncate 8 := rfl
@[simp] theorem errorCompletion_inBuf : (errorCompletion e s).inBuf = s.inBuf := rfl
@[simp] theorem errorCompletion_outBuf : (errorCompletion e s).outBuf = Memory.unspecified s.draws := rfl
@[simp] theorem errorCompletion_cmdl : (errorCompletion e s).cmdl = s.cmdl := rfl
@[simp] theorem errorCompletion_hazard : (errorCompletion e s).hazard = s.hazard := rfl
@[simp] theorem errorCompletion_draws : (errorCompletion e s).draws = s.draws + 1 := rfl
@[simp] theorem errorCompletion_pending : (errorCompletion e s).pending = s.pending := rfl
@[simp] theorem errorCompletion_turns : (errorCompletion e s).turns = s.turns := rfl
@[simp] theorem errorCompletion_seen : (errorCompletion e s).seen = s.seen := rfl

end errorCompletion

section resetInput
/-! The state after the reset input (R170). -/
variable (s : State)

@[simp] theorem resetInput_caps : (resetInput s).caps = s.caps := rfl
@[simp] theorem resetInput_phase : (resetInput s).phase = .idle := rfl
@[simp] theorem resetInput_err : (resetInput s).err = none := rfl
@[simp] theorem resetInput_inLen : (resetInput s).inLen = 0#32 := rfl
@[simp] theorem resetInput_outLen : (resetInput s).outLen = 0#32 := rfl
@[simp] theorem resetInput_symCount : (resetInput s).symCount = 0#8 := rfl
@[simp] theorem resetInput_byteCount : (resetInput s).byteCount = 0#32 := rfl
@[simp] theorem resetInput_modulo : (resetInput s).modulo = 0#3 := rfl
@[simp] theorem resetInput_freq : (resetInput s).freq = Vector.replicate 256 0#32 := rfl
@[simp] theorem resetInput_codeLen : (resetInput s).codeLen = Vector.replicate 256 0#8 := rfl
@[simp] theorem resetInput_inBuf : (resetInput s).inBuf = Memory.unspecified s.draws := rfl
@[simp] theorem resetInput_outBuf : (resetInput s).outBuf = Memory.unspecified (s.draws + 1) := rfl
@[simp] theorem resetInput_cmdl : (resetInput s).cmdl = freeCommand (s.draws + 2) := rfl
@[simp] theorem resetInput_hazard : (resetInput s).hazard = false := rfl
@[simp] theorem resetInput_draws : (resetInput s).draws = s.draws + 3 := rfl
@[simp] theorem resetInput_pending : (resetInput s).pending = s.pending := rfl
@[simp] theorem resetInput_turns : (resetInput s).turns = s.turns := rfl
@[simp] theorem resetInput_seen : (resetInput s).seen = s.seen := rfl

end resetInput

section placeCommand
/-! The state after a command word placed as HOST's next action (R95). -/
variable (w : Word) (s : State)

@[simp] theorem placeCommand_caps : (placeCommand w s).caps = s.caps := rfl
@[simp] theorem placeCommand_phase : (placeCommand w s).phase = s.phase := rfl
@[simp] theorem placeCommand_err : (placeCommand w s).err = s.err := rfl
@[simp] theorem placeCommand_inLen : (placeCommand w s).inLen = s.inLen := rfl
@[simp] theorem placeCommand_outLen : (placeCommand w s).outLen = s.outLen := rfl
@[simp] theorem placeCommand_symCount : (placeCommand w s).symCount = s.symCount := rfl
@[simp] theorem placeCommand_byteCount : (placeCommand w s).byteCount = s.byteCount := rfl
@[simp] theorem placeCommand_modulo : (placeCommand w s).modulo = s.modulo := rfl
@[simp] theorem placeCommand_freq : (placeCommand w s).freq = s.freq := rfl
@[simp] theorem placeCommand_codeLen : (placeCommand w s).codeLen = s.codeLen := rfl
@[simp] theorem placeCommand_inBuf : (placeCommand w s).inBuf = s.inBuf := rfl
@[simp] theorem placeCommand_outBuf : (placeCommand w s).outBuf = s.outBuf := rfl
@[simp] theorem placeCommand_cmdl : (placeCommand w s).cmdl = s.cmdl := rfl
@[simp] theorem placeCommand_hazard : (placeCommand w s).hazard = s.hazard := rfl
@[simp] theorem placeCommand_draws : (placeCommand w s).draws = s.draws := rfl
@[simp] theorem placeCommand_pending : (placeCommand w s).pending = .wrReg 0x000#32 w :: s.pending := rfl
@[simp] theorem placeCommand_turns : (placeCommand w s).turns = if s.phase = .busy then .host :: s.turns else s.turns := rfl
@[simp] theorem placeCommand_seen : (placeCommand w s).seen = s.seen := rfl

end placeCommand

end Sys2Proof.Machine
end

