-- ==== Sys2Proof/Laws/Step.lean ====
section
/-! SUPPORT. What each shared operation over the state can do, said once: scheduling, the ends of a command, the host's
step, and the step of the machine. -/

namespace Sys2Proof.Machine

/-- HOST moves: it had an action, and while BUSY the turn was its own (R20). -/
theorem schedule_host {s u : State} {a : HostAction} (h : schedule s = .host a u) :
    ∃ as ts, s.pending = a :: as ∧ u = { s with pending := as, turns := ts } ∧
      ((s.phase = .busy ∧ s.turns = .host :: ts) ∨ (s.phase ≠ .busy ∧ ts = s.turns)) := by
  simp only [schedule] at h
  split at h
  · rename_i hb
    split at h
    · rename_i ts a' as ht hp
      cases h
      exact ⟨as, ts, hp, rfl, .inl ⟨hb, ht⟩⟩
    · cases h
  · rename_i hb
    split at h
    · rename_i a' as hp
      cases h
      exact ⟨as, s.turns, hp, rfl, .inr ⟨hb, rfl⟩⟩
    · cases h

/-- BLOCK moves: a command is in flight (R20, R98). -/
theorem schedule_block {s u : State} (h : schedule s = .block u) :
    s.phase = .busy ∧ u = { s with turns := s.turns.tail } := by
  simp only [schedule] at h
  split at h
  · rename_i hb
    split at h
    · cases h
    · cases h; exact ⟨hb, rfl⟩
  · split at h <;> cases h

/-- Neither moves: no command is in flight and HOST has nothing to do (R163). -/
theorem schedule_none {s : State} (h : schedule s = .none) : s.phase ≠ .busy ∧ s.pending = [] := by
  simp only [schedule] at h
  split at h
  · split at h <;> cases h
  · rename_i hb
    split at h
    · cases h
    · rename_i hp; exact ⟨hb, hp⟩

/-- A step is HOST's, BLOCK's, or nothing (R20, R163). -/
theorem step_cases {s t : State} (h : step s = .next t) :
    (∃ a u, schedule s = .host a u ∧ hostStep a u = .next t) ∨
    (∃ u, schedule s = .block u ∧ completionStep u = .next t) ∨ (schedule s = .none ∧ t = s) := by
  simp only [step] at h
  split at h
  · rename_i a u hs; exact .inl ⟨a, u, hs, h⟩
  · rename_i u hs; exact .inr (.inl ⟨u, hs, h⟩)
  · rename_i hs; cases h; exact .inr (.inr ⟨hs, rfl⟩)

/-- A completion step ends with a result or with an error (R98). -/
theorem completionStep_cases {s t : State} (h : completionStep s = .next t) :
    (∃ r, runCommand s = .ok r ∧ t = finishCommand r s) ∨
    (∃ e, runCommand s = .err e ∧ t = errorCompletion e s) := by
  simp only [completionStep] at h
  split at h
  · rename_i r hr; cases h; exact .inl ⟨r, hr, rfl⟩
  · rename_i e he; cases h; exact .inr ⟨e, he, rfl⟩
  · cases h

/-- What a command writes to OUT fits in it (R105, R130). -/
theorem encodeBytes_out_le {cap : Nat} {bs : List Byte} {r : Result} (h : encodeBytes cap bs = .ok r) :
    r.out.length ≤ cap := by
  simp only [encodeBytes] at h
  split at h
  · cases h
  · split at h
    · cases h
    · split at h
      · cases h
      · split at h
        · cases h
        · split at h
          · cases h
          · rename_i hle; cases h; exact Nat.le_of_not_gt hle

theorem decodeBytes_out_le {cap : Nat} {bs : List Byte} {r : Result} (h : decodeBytes cap bs = .ok r) :
    r.out.length ≤ cap := by
  simp only [decodeBytes] at h
  split at h
  · cases h
  · split at h
    · cases h
    · split at h
      · simp only [emitSingle] at h
        split at h
        · cases h
        · split at h
          · cases h
          · rename_i hle
            cases h
            simpa [decodeResult] using hle
      · simp only [emitWalk] at h
        split at h
        · cases h
        · split at h
          · cases h
          · split at h
            · cases h
            · rename_i hle; cases h; exact Nat.le_of_not_gt hle

theorem runCommand_out_le {s : State} {r : Result} (h : runCommand s = .ok r) : r.out.length ≤ s.caps.outCap := by
  simp only [runCommand, runEncode, runDecode] at h
  split at h <;> split at h
  · cases h
  · exact encodeBytes_out_le h
  · cases h
  · exact decodeBytes_out_le h

/-- No command raises IllegalCommand (R150): that error comes from the CTRL write alone. -/
theorem runCommand_err_ne_illegal {s : State} {e : ErrorCode} (h : runCommand s = .err e) : e ≠ .illegalCommand := by
  simp only [runCommand, runEncode, runDecode, encodeBytes, decodeBytes, emitSingle, emitWalk] at h
  repeat' split at h
  all_goals first | (cases h; decide) | cases h

/-- A CTRL write: every command either leaves the state, latches, or raises IllegalCommand (R95 to R97). -/
theorem exec_cases {i : Instr} {s t : State} (h : exec i s = .next t) :
    t = s ∨ (s.phase ≠ .busy ∧ ∃ c, t = setBusy { s with cmdl := c }) ∨
      (s.phase ≠ .busy ∧ t = setError .illegalCommand s) := by
  cases i <;> simp only [exec, execNop, execEncode, execDecode, execReserved, latchCommand] at h
  case nop => cases h; exact .inl rfl
  all_goals
    split at h
    · cases h; exact .inl rfl
    · rename_i hb; cases h; first | exact .inr (.inl ⟨hb, _, rfl⟩) | exact .inr (.inr ⟨hb, rfl⟩)

/-- A CTRL write always gives a next state. -/
theorem exec_next (i : Instr) (s : State) : ∃ t, exec i s = .next t := by
  cases i <;> exact ⟨_, rfl⟩

/-- A register write runs a command, stores IN_LEN, or changes nothing (R95, R27, R60). -/
theorem writeReg_cases {off w : Word} {s t : State} (h : writeReg off w s = .next t) :
    (regOf off = .ctrl ∧ exec (decode w) s = .next t) ∨ (regOf off = .inLen ∧ t = hostWriteInLen w s) ∨ t = s := by
  simp only [writeReg] at h
  split at h
  · rename_i hr; exact .inl ⟨hr, h⟩
  · rename_i hr; cases h; exact .inr (.inl ⟨hr, rfl⟩)
  · cases h; exact .inr (.inr rfl)

/-- What one action of HOST can do. -/
theorem hostStep_cases {a : HostAction} {s t : State} (h : hostStep a s = .next t) :
    (∃ off w, a = .wrReg off w ∧ regRefusal off = none ∧ writeReg off w s = .next t) ∨
    (∃ off, a = .rdReg off ∧ regRefusal off = none ∧ t = hostReadReg off s) ∨
    (∃ off b, a = .wrIn off b ∧ off.toNat < s.caps.inCap ∧ t = hostWriteIn off b s) ∨
    (∃ off, a = .rdIn off ∧ off.toNat < s.caps.inCap ∧ t = hostReadIn off s) ∨
    (∃ off, a = .rdOut off ∧ off.toNat < s.caps.outCap ∧ t = hostReadOut off s) ∨
    (∃ off b, a = .wrOut off b ∧ off.toNat < s.caps.outCap ∧ t = s) ∨
    (a = .poll ∧ t = hostPoll s) ∨ (a = .reset ∧ t = resetInput s) := by
  cases a with
  | wrReg off w =>
    simp only [hostStep] at h
    split at h
    · cases h
    · rename_i hr; exact .inl ⟨off, w, rfl, hr, h⟩
  | rdReg off =>
    simp only [hostStep] at h
    split at h
    · cases h
    · rename_i hr; cases h; exact .inr (.inl ⟨off, rfl, hr, rfl⟩)
  | wrIn off b =>
    simp only [hostStep] at h
    split at h
    · rename_i hr; cases h; exact .inr (.inr (.inl ⟨off, b, rfl, hr, rfl⟩))
    · cases h
  | rdIn off =>
    simp only [hostStep] at h
    split at h
    · rename_i hr; cases h; exact .inr (.inr (.inr (.inl ⟨off, rfl, hr, rfl⟩)))
    · cases h
  | rdOut off =>
    simp only [hostStep] at h
    split at h
    · rename_i hr; cases h; exact .inr (.inr (.inr (.inr (.inl ⟨off, rfl, hr, rfl⟩))))
    · cases h
  | wrOut off b =>
    simp only [hostStep] at h
    split at h
    · rename_i hr; cases h; exact .inr (.inr (.inr (.inr (.inr (.inl ⟨off, b, rfl, hr, rfl⟩)))))
    · cases h
  | poll => cases h; exact .inr (.inr (.inr (.inr (.inr (.inr (.inl ⟨rfl, rfl⟩))))))
  | reset => cases h; exact .inr (.inr (.inr (.inr (.inr (.inr (.inr ⟨rfl, rfl⟩))))))

end Sys2Proof.Machine
end

