-- ==== Sys2Proof/Laws/Tree.lean ====
section
/-! SUPPORT. What the tree builder does to the set of nodes it works on (41_encoder.md rules R110 and R111). -/

namespace Sys2Proof.Machine

/-- Extracting a node keeps the set of nodes (R111). -/
theorem popMin_perm (t : Tree) (q : List Tree) : ((popMin t q).1 :: (popMin t q).2).Perm (t :: q) := by
  induction q generalizing t with
  | nil => exact List.Perm.refl _
  | cons u us ih =>
    simp only [popMin]
    split
    · exact (ih u).cons t
    · exact (List.Perm.swap _ _ _).trans ((ih u).cons t)

/-- Extracting a node takes one node off the set. -/
theorem popMin_length (t : Tree) (q : List Tree) : (popMin t q).2.length = q.length := by
  have := (popMin_perm t q).length_eq
  simpa using this

/-- The node extracted and the nodes left are those of the set. -/
theorem popMin_eq_perm {t x : Tree} {q rest : List Tree} (h : popMin t q = (x, rest)) : (x :: rest).Perm (t :: q) := by
  have := popMin_perm t q
  rwa [h] at this

theorem popMin_eq_length {t x : Tree} {q rest : List Tree} (h : popMin t q = (x, rest)) :
    rest.length = q.length := by
  have := popMin_length t q
  rwa [h] at this

/-- The induction over the merging loop, packaged once. `P next l` says something of the next free index and the set
of nodes `l`; if it holds at the start and a merge of the two extracted nodes keeps it, then it holds of the root. -/
theorem mergeLoop_induct {P : Nat → List Tree → Prop}
    (merge : ∀ next t q x v vs y rest, P next (t :: q) → popMin t q = (x, v :: vs) → popMin v vs = (y, rest) →
      P (next + 1) (.internal next (x.weight + y.weight) x y :: rest))
    {next : Nat} {t : Tree} {q : List Tree} (h : P next (t :: q)) :
    P (next + q.length) [mergeLoop q.length next t q] := by
  obtain ⟨k, hk⟩ : ∃ k, k = q.length := ⟨_, rfl⟩
  rw [← hk]
  induction k generalizing next t q with
  | zero =>
    rw [List.length_eq_zero_iff.1 hk.symm] at h
    exact h
  | succ k ih =>
    simp only [mergeLoop]
    split
    · rename_i x hx
      have := popMin_eq_length hx
      simp only [List.length_nil] at this
      omega
    · rename_i x v vs hx
      have hl := popMin_eq_length hx
      obtain ⟨y, rest, hy⟩ : ∃ y rest, popMin v vs = (y, rest) := ⟨_, _, rfl⟩
      have hl' := popMin_eq_length hy
      rw [hy]
      have hq : k = rest.length := by
        simp only [List.length_cons] at hl
        omega
      have := ih (merge _ _ _ _ _ _ _ _ h hx hy) hq
      rwa [Nat.add_right_comm, Nat.add_assoc next k 1] at this

/-- Merging keeps the symbols: the root has the leaves of all the nodes of the set. -/
theorem mergeLoop_symbols (next : Nat) (t : Tree) (q : List Tree) :
    (mergeLoop q.length next t q).symbols.Perm ((t :: q).flatMap Tree.symbols) := by
  have := mergeLoop_induct (P := fun _ l => (l.flatMap Tree.symbols).Perm ((t :: q).flatMap Tree.symbols))
    (next := next) (t := t) (q := q) ?_ (List.Perm.refl _)
  · simpa using this
  · intro next t q x v vs y rest h hx hy
    refine List.Perm.trans ?_ h
    refine List.Perm.trans ?_ ((popMin_eq_perm hx).flatMap_right _)
    have := ((popMin_eq_perm hy).flatMap_right Tree.symbols).append_left x.symbols
    simpa [Tree.symbols] using this

theorem leavesFrom_length (F : FreqTable) (k : Nat) (A : List Byte) : (leavesFrom F k A).length = A.length := by
  induction A generalizing k with
  | nil => rfl
  | cons s ss ih => simp [leavesFrom, ih]

theorem leavesFrom_symbols (F : FreqTable) (k : Nat) (A : List Byte) :
    (leavesFrom F k A).flatMap Tree.symbols = A := by
  induction A generalizing k with
  | nil => rfl
  | cons s ss ih => simp [leavesFrom, mkLeaf, Tree.symbols, ih]

/-- Every symbol of the alphabet has exactly one leaf (R113). -/
theorem buildTree_symbols (F : FreqTable) (a : Byte) (as : List Byte) : (buildTree F a as).symbols.Perm (a :: as) := by
  have := mergeLoop_symbols (as.length + 1) (mkLeaf F 0 a) (leavesFrom F 1 as)
  rw [leavesFrom_length, List.flatMap_cons, leavesFrom_symbols] at this
  exact this

/-- The code table has the leaves of the tree, in order (R115). -/
theorem visit_symbols (t : Tree) (p : Bits) : (t.visit p).map Prod.fst = t.symbols := by
  induction t generalizing p with
  | leaf i s w => rfl
  | internal i w l r ihl ihr => simp [Tree.visit, Tree.symbols, ihl, ihr]

theorem codeOf_isSome {s : Byte} {tbl : CodeTable} : (codeOf s tbl).isSome = true ↔ s ∈ tbl.map Prod.fst := by
  induction tbl with
  | nil => simp [codeOf]
  | cons c tbl ih =>
    obtain ⟨t, p⟩ := c
    by_cases h : t = s
    · simp [codeOf, h]
    · simp [codeOf, h, ih, Ne.symm h]

/-- A symbol has a code exactly when the tree has a leaf for it (R115). -/
theorem codeGen_isSome {t : Tree} {s : Byte} : (codeOf s (codeGen t)).isSome = true ↔ s ∈ t.symbols := by
  rw [codeOf_isSome, codeGen, visit_symbols]

/-- The translator finds a code for every byte when the table has them all (R117). -/
theorem translateBytes_isSome {tbl : CodeTable} {bs : List Byte} (h : ∀ b ∈ bs, (codeOf b tbl).isSome = true) :
    (translateBytes tbl bs).isSome = true := by
  induction bs with
  | nil => rfl
  | cons b bs ih =>
    obtain ⟨c, hc⟩ := Option.isSome_iff_exists.1 (h b List.mem_cons_self)
    obtain ⟨r, hr⟩ := Option.isSome_iff_exists.1 (ih fun x hx => h x (List.mem_cons_of_mem _ hx))
    simp [translateBytes, hc, hr]

end Sys2Proof.Machine
end

