-- ==== Sys2Proof/Laws/Walk.lean ====
section
/-! SUPPORT. Codes as paths from the root, the entries of the node arena, and what the walk does with a path
(41_encoder.md rule R115, 42_decoder.md rule R136). -/

namespace Sys2Proof.Machine

/-- The symbol at the end of a path from a node, if the path ends at a leaf. -/
def Tree.follow : Tree → Bits → Option Byte
  | .leaf _ s _, [] => some s
  | .leaf _ _ _, _ :: _ => none
  | .internal _ _ _ _, [] => none
  | .internal _ _ l r, b :: bs => if b then r.follow bs else l.follow bs

/-- The entries `Visit` records below a node: each path to a leaf, after the path to the node (R115). -/
theorem mem_visit (t : Tree) (p : Bits) (x : Byte) (c : Bits) :
    (x, c) ∈ t.visit p ↔ ∃ q, c = p ++ q ∧ t.follow q = some x := by
  induction t generalizing p with
  | leaf i s w =>
    simp only [Tree.visit, List.mem_singleton, Prod.mk.injEq]
    constructor
    · rintro ⟨rfl, rfl⟩; exact ⟨[], by simp, rfl⟩
    · rintro ⟨q, rfl, h⟩
      cases q with
      | nil => simp [Tree.follow] at h; simp [h]
      | cons b q => simp [Tree.follow] at h
  | internal i w l r ihl ihr =>
    simp only [Tree.visit, List.mem_append, ihl, ihr]
    constructor
    · rintro (⟨q, rfl, h⟩ | ⟨q, rfl, h⟩)
      · exact ⟨false :: q, by simp, by simpa [Tree.follow] using h⟩
      · exact ⟨true :: q, by simp, by simpa [Tree.follow] using h⟩
    · rintro ⟨q, rfl, h⟩
      cases q with
      | nil => simp [Tree.follow] at h
      | cons b q =>
        cases b
        · exact .inl ⟨q, by simp, by simpa [Tree.follow] using h⟩
        · exact .inr ⟨q, by simp, by simpa [Tree.follow] using h⟩

theorem codeOf_mem {x : Byte} {tbl : CodeTable} {c : Bits} (h : codeOf x tbl = some c) : (x, c) ∈ tbl := by
  induction tbl with
  | nil => simp [codeOf] at h
  | cons e tbl ih =>
    obtain ⟨t, d⟩ := e
    simp only [codeOf] at h
    split at h
    · rename_i ht; cases h; subst ht; exact List.mem_cons_self
    · exact List.mem_cons_of_mem _ (ih h)

/-- A symbol's code is the path to its leaf. -/
theorem follow_codeOf {x : Byte} {t : Tree} {c : Bits} (h : codeOf x (codeGen t) = some c) : t.follow c = some x := by
  obtain ⟨q, h1, h2⟩ := (mem_visit t [] x c).1 (codeOf_mem h)
  simp at h1; subst h1; exact h2

/-- Where no index is used twice, `NODE[k]` is the entry the arena lists for `k`. -/
theorem nodeAt_of_mem {arena : List (Nat × Node)} (hn : (arena.map Prod.fst).Nodup) {k : Nat} {nd : Node}
    (h : (k, nd) ∈ arena) : nodeAt k arena = some nd := by
  induction arena with
  | nil => cases h
  | cons e arena ih =>
    obtain ⟨j, nd'⟩ := e
    rw [List.map_cons, List.nodup_cons] at hn
    rcases List.mem_cons.1 h with h | h
    · cases h; simp [nodeAt]
    · have hj : j ≠ k := by rintro rfl; exact hn.1 (List.mem_map.2 ⟨_, h, rfl⟩)
      simp [nodeAt, hj, ih hn.2 h]

/-- A tree's own entry stands in its arena, under its index and with its weight. -/
theorem arena_head (t : Tree) : ∃ nd, (t.idx, nd) ∈ t.arena ∧ nd.weight = t.weight := by
  cases t with
  | leaf i s w => exact ⟨_, List.mem_cons_self, rfl⟩
  | internal i w l r => exact ⟨_, List.mem_cons_self, rfl⟩

/-- A walk that reads a path emits the symbol at its end and goes on from the root (R136). -/
theorem walkFrom_follow (root : Tree) (cur : Tree) (hc : ∀ i s w, cur ≠ .leaf i s w) (q rest : Bits) (x : Byte)
    (h : cur.follow q = some x) : walkFrom root cur (q ++ rest) = (walkFrom root root rest).map (x :: ·) := by
  induction cur generalizing q with
  | leaf i s w => exact absurd rfl (hc _ _ _)
  | internal i w l r ihl ihr =>
    cases q with
    | nil => simp [Tree.follow] at h
    | cons b q =>
      simp only [List.cons_append, walkFrom]
      cases b
      · simp only [Tree.follow, Bool.false_eq_true, if_false] at h ⊢
        cases l with
        | leaf i' s' w' =>
          cases q with
          | nil => simp [Tree.follow] at h; subst h; simp; cases walkFrom root root rest <;> rfl
          | cons b q => simp [Tree.follow] at h
        | internal i' w' l' r' => exact ihl (by simp) q h
      · simp only [Tree.follow, if_true] at h ⊢
        cases r with
        | leaf i' s' w' =>
          cases q with
          | nil => simp [Tree.follow] at h; subst h; simp; cases walkFrom root root rest <;> rfl
          | cons b q => simp [Tree.follow] at h
        | internal i' w' l' r' => exact ihr (by simp) q h

end Sys2Proof.Machine
end

