-- ==== Sys2Proof/Tests/Slice0.lean ====
section
/-! SUPPORT. Tests on small states, their expected results taken from 95_test_vectors.md and 30_encoding.md, and for every
obligation that has hypotheses a concrete input that meets them (`witness_...`, one part for each clause). -/

namespace Sys2Proof.Tests

open Sys2Proof Sys2Proof.Machine

/-! ### States and byte strings used below -/

/-- The state of a host that loaded `bs` into IN from offset 0, IN_LEN its length. -/
def ready (bs : List Byte) : State :=
  { State.reset with inBuf := { cells := cellsFrom 0 bs, fill := 0 }, inLen := BitVec.ofNat 32 bs.length }

/-- IN of `ready bs` holds `bs`. -/
theorem ready_input (bs : List Byte) (h : bs.length < 2 ^ 32) : (ready bs).input = bs := by
  have hb := bytes_storePrefix (Memory.unspecified 0) bs
  have he : (BitVec.ofNat 32 bs.length).toNat = bs.length := by rw [BitVec.toNat_ofNat, Nat.mod_eq_of_lt h]
  simp only [State.input, ready, he]
  simpa [Memory.storePrefix, Memory.unspecified] using hb

/-- The same with a command in flight. -/
def busyOn (c : Command) (bs : List Byte) : State := { ready bs with cmdl := c, phase := .busy }

/-- The same with OUT_CAP = `n`. -/
def withOutCap (n : Nat) (s : State) : State := { s with caps := { inCap := s.caps.inCap, outCap := n } }

/-- The same with IN_CAP = `n`. -/
def withInCap (n : Nat) (s : State) : State := { s with caps := { inCap := n, outCap := s.caps.outCap } }

/-- The same with HOST's program `as`. -/
def asking (as : List HostAction) (s : State) : State := { s with pending := as }

/-- HOST moves first. -/
def hostFirst (s : State) : State := { s with turns := [.host] }

/-- A state in ERROR. -/
def inError (e : ErrorCode) : State := { State.reset with phase := .error, err := some e }

/-- A state in DONE. -/
def inDone : State := { State.reset with phase := .done, outLen := 17#32 }

/-- What a test looks at in an outcome. -/
def ended (o : Host.Outcome State Fault Refusal) (p : State → Bool) : Bool :=
  match o with
  | .next t => p t
  | .fault _ => false
  | .refused _ => false

/-- The next step has a next state. -/
abbrev completes (s : State) : Prop := ended (step s) (fun _ => true) = true

/-- The refusal of an outcome, if it is one. -/
def refusalOf (o : Host.Outcome State Fault Refusal) : Option Refusal :=
  match o with
  | .next _ => none
  | .fault _ => none
  | .refused r => some r

/-- The result a command ends with, if it ends with one. -/
def resultOf : CommandEnd → Option Result
  | .ok r => some r
  | .err _ => none
  | .fault _ => none

theorem ok_of_resultOf {e : CommandEnd} {r : Result} (h : resultOf e = some r) : e = .ok r := by
  cases e <;> simp [resultOf] at h
  rw [h]

/-- The table ReadTable gives for a container, or an empty one where it refuses. -/
def tableIn (C : List Byte) : Table :=
  match readTable C with
  | some t => t
  | none => { n := 0#8, F := Vector.replicate 256 0#32, bc := 0#32, md := 0#8, payload := [] }

theorem readTable_tableIn {C : List Byte} (h : (readTable C).isSome = true) : readTable C = some (tableIn C) := by
  cases h' : readTable C with
  | none => simp [h'] at h
  | some t => simp [tableIn, h']

/-- "aaab" -/
def aaab : List Byte := [0x61#8, 0x61#8, 0x61#8, 0x62#8]

/-- The container K of 95_test_vectors.md L2.5. -/
def contK : List Byte :=
  [0x02#8, 0x61#8, 0x03#8, 0x00#8, 0x00#8, 0x00#8, 0x62#8, 0x01#8, 0x00#8, 0x00#8, 0x00#8, 0x00#8, 0x00#8, 0x00#8, 0x00#8,
    0x04#8, 0xE0#8]

/-- The single-symbol container of L1.2. -/
def contSingle : List Byte :=
  [0x01#8, 0x41#8, 0x0A#8, 0x00#8, 0x00#8, 0x00#8, 0x00#8, 0x00#8, 0x00#8, 0x00#8, 0x00#8]

/-- The single-symbol container with a payload, L2.5 row (h). -/
def contSinglePayload : List Byte :=
  [0x01#8, 0x41#8, 0x0A#8, 0x00#8, 0x00#8, 0x00#8, 0x00#8, 0x00#8, 0x00#8, 0x00#8, 0x01#8, 0x80#8]

/-- "abc" container ending `01 80`, L2.6. -/
def contPathEndsInside : List Byte :=
  [0x03#8, 0x61#8, 0x01#8, 0x00#8, 0x00#8, 0x00#8, 0x62#8, 0x01#8, 0x00#8, 0x00#8, 0x00#8, 0x63#8, 0x01#8, 0x00#8, 0x00#8,
    0x00#8, 0x00#8, 0x00#8, 0x00#8, 0x00#8, 0x01#8, 0x80#8]

/-- K with its last two bytes `03 E0`, L2.6. -/
def contCountWrong : List Byte := contK.take 15 ++ [0x03#8, 0xE0#8]

/-- The frequency table of "aaab". -/
def freqAaab : FreqTable := freqAnalyze aaab

/-! ### The command word (30_encoding.md R70, R71, R84; 95_test_vectors.md L2.8) -/

theorem test_decode_nop : decode 0b00000000000000000000000000000000#32 = .nop := by decide

theorem test_decode_encode : decode 0b00000000000000000000000000000001#32 = .encode := by decide

theorem test_decode_decode : decode 0b00000000000000000000000000000010#32 = .decode := by decide

theorem test_decode_reserved : decode 0b00000000000000000000000000000011#32 = .reserved := by decide

/-- L2.8: `0x00000005` is ENCODE, `0xFFFFFFFE` is DECODE: bits [31:2] are ignored. -/
theorem test_decode_ignores_reserved_bits : decode 0x00000005#32 = .encode ∧ decode 0xFFFFFFFE#32 = .decode := by decide

theorem test_decodeTableWord :
    decodeTableWord 32 0 = some .nop ∧ decodeTableWord 32 1 = some .encode ∧ decodeTableWord 32 2 = some .decode ∧
    decodeTableWord 32 3 = some .reserved ∧ decodeTableWord 40 0x100000000 = none := by decide

/-- The first step after reset runs the command that was placed. -/
theorem test_first_instruction_after_reset :
    ended (step (State.reset.withFetchWord 32 1)) (fun t => t.phase = .busy && t.cmdl = .encode) = true ∧
    ended (step (State.reset.withFetchWord 32 2)) (fun t => t.phase = .busy && t.cmdl = .decode) = true ∧
    ended (step (State.reset.withFetchWord 32 3)) (fun t => statusWord t = 0x63#32) = true ∧
    ended (step (State.reset.withFetchWord 32 0)) (fun t => t.phase = .idle && t.pending = []) = true := by decide

/-! ### Well-formedness: an ill-formed action for each check -/

theorem test_wellFormed_command : Instr.wellFormed .nop = true ∧ Instr.wellFormed .reserved = true := by decide

theorem test_illFormed_register_misaligned :
    (HostAction.rdReg 0x006#32).wellFormed State.reset.caps = false ∧
    (HostAction.wrReg 0x001#32 1#32).wellFormed State.reset.caps = false := by decide

theorem test_illFormed_register_outside :
    (HostAction.rdReg 0x1000#32).wellFormed State.reset.caps = false ∧
    (HostAction.rdReg 0xFFC#32).wellFormed State.reset.caps = true := by decide

theorem test_illFormed_in_outside :
    (HostAction.wrIn 4096#32 0#8).wellFormed State.reset.caps = false ∧
    (HostAction.rdIn 4096#32).wellFormed State.reset.caps = false ∧
    (HostAction.wrIn 4095#32 0#8).wellFormed State.reset.caps = true := by decide

theorem test_illFormed_out_outside :
    (HostAction.rdOut 4096#32).wellFormed State.reset.caps = false ∧
    (HostAction.wrOut 4096#32 0#8).wellFormed State.reset.caps = false ∧
    (HostAction.rdOut 4095#32).wellFormed State.reset.caps = true := by decide

/-! ### The commands -/

/-- L2.8: NOP in ERROR leaves STATUS 0x00000023. -/
theorem test_nop_keeps_the_error :
    ended (exec .nop (inError .malformedContainer)) (fun t => statusWord t = 0x23#32) = true := by decide

/-- L2.8: from STATUS 0x63, ENCODE gives STATUS 1 at once; then L2.4 "aaab". -/
theorem test_encode_starts :
    ended (exec .encode (inError .illegalCommand)) (fun t => statusWord t = 1#32) = true := by decide

/-- L1.1, L2.4: the container of "aaab", with OUT_LEN 17, SYM_COUNT 2, BYTE_COUNT 0 and MODULO 4. -/
theorem test_encode_aaab :
    ended (completionStep (busyOn .encode aaab)) (fun t => statusWord t = 2#32 && t.output = contK &&
      t.outLen = 17#32 && t.symCount = 2#8 && t.byteCount = 0#32 && t.modulo = 4#3) = true := by decide +kernel

/-- L2.6: K gives back "aaab". -/
theorem test_decode_K :
    ended (completionStep (busyOn .decode contK)) (fun t => statusWord t = 2#32 && t.output = aaab &&
      t.outLen = 4#32 && t.symCount = 2#8 && t.modulo = 4#3) = true := by decide +kernel

/-- L2.6: the bits run out inside the tree, InvalidBitPath before the count check. -/
theorem test_decode_invalidBitPath :
    ended (completionStep (busyOn .decode contPathEndsInside)) (fun t => statusWord t = 0x33#32 && t.outLen = 0#32) =
      true := by decide +kernel

/-- L2.8: the reserved command in DONE, OUT_LEN = 17: STATUS 0x63, OUT_LEN still 17. -/
theorem test_reserved_in_done :
    ended (exec .reserved inDone) (fun t => statusWord t = 0x63#32 && t.outLen = 17#32) = true := by decide

/-- L2.8: the reserved command while BUSY is ignored. -/
theorem test_reserved_while_busy :
    ended (exec .reserved (busyOn .encode aaab)) (fun t => statusWord t = 1#32 && t.cmdl = .encode) = true := by decide

/-! ### Codes and bits (L2.2, L2.3) -/

/-- L2.2 "hello": e = 00, h = 01, o = 10, l = 11. -/
theorem test_codes_hello :
    codeGen (buildTree (freqAnalyze [0x68#8, 0x65#8, 0x6C#8, 0x6C#8, 0x6F#8]) 0x65#8 [0x68#8, 0x6C#8, 0x6F#8]) =
      [(0x65#8, [false, false]), (0x68#8, [false, true]), (0x6F#8, [true, false]), (0x6C#8, [true, true])] := by
  decide +kernel

/-- L2.3 "aaaaaaaaab": payload `FF 80`. -/
theorem test_pack : packBits [true, true, true, true, true, true, true, true, true, false] = [0xFF#8, 0x80#8] := by decide

/-- 00_scope.md R11. -/
theorem test_u32le : u32le 0x04030201#32 = [0x01#8, 0x02#8, 0x03#8, 0x04#8] ∧
    rdU32le 0x01#8 0x02#8 0x03#8 0x04#8 = 0x04030201#32 := by decide

/-! ### HOST's accesses (L2.8) -/

/-- L2.8: the CTRL register and the reserved offsets read 0. -/
theorem test_reserved_offsets :
    ended (hostStep (.rdReg 0x01C#32) inDone) (fun t => t.seen = [.word 0#32]) = true ∧
    ended (hostStep (.rdReg 0xFFC#32) inDone) (fun t => t.seen = [.word 0#32]) = true ∧
    ended (hostStep (.rdReg 0x000#32) inDone) (fun t => t.seen = [.word 0#32]) = true := by decide

/-- L2.8: a write to IN while BUSY sets HAZARD. -/
theorem test_hazard :
    ended (hostStep (.wrIn 0#32 0#8) (busyOn .encode aaab)) (fun t => t.hazard) = true := by decide +kernel

/-! ### Witnesses: the command words and dispatch -/

theorem witness_CmdFieldAloneSelectsTheCommand :
    (0xFFFFFFFC#32 : Word).toNat % 4 = 0 ∧ (0xFFFFFFFD#32 : Word).toNat % 4 = 1 ∧ (0xFFFFFFFE#32 : Word).toNat % 4 = 2 ∧
    (0xFFFFFFFF#32 : Word).toNat % 4 = 3 ∧ (0x00000003#32 : Word).toNat % 4 = (0xFFFFFFFF#32 : Word).toNat % 4 := by decide

/-- Clauses 3 and 4; clauses 1 and 2 have no hypothesis. -/
theorem witness_CtrlWriteRunsTheDecodedCommand :
    (asking [.wrReg 0x000#32 1#32] State.reset).phase ≠ .busy ∧
    (asking [.wrReg 0x000#32 1#32] State.reset).pending = .wrReg 0x000#32 1#32 :: [] ∧
    (hostFirst (asking [.wrReg 0x000#32 3#32] (busyOn .decode []))).phase = .busy ∧
    (hostFirst (asking [.wrReg 0x000#32 3#32] (busyOn .decode []))).turns = .host :: [] ∧
    (hostFirst (asking [.wrReg 0x000#32 3#32] (busyOn .decode []))).pending = .wrReg 0x000#32 3#32 :: [] := by decide

/-- One state for each clause; the third clause by either alternative. -/
theorem witness_StepIsTheScheduledAgentsMove :
    ((asking [.poll] State.reset).phase ≠ .busy ∧ (asking [.poll] State.reset).pending = .poll :: []) ∧
    ((hostFirst (asking [.poll] (busyOn .decode []))).phase = .busy ∧
      (hostFirst (asking [.poll] (busyOn .decode []))).turns = .host :: [] ∧
      (hostFirst (asking [.poll] (busyOn .decode []))).pending = .poll :: []) ∧
    ((asking [.poll] (busyOn .decode [])).phase = .busy ∧ (asking [.poll] (busyOn .decode [])).turns.head? ≠ some .host) ∧
    ((hostFirst (busyOn .decode [])).phase = .busy ∧ (hostFirst (busyOn .decode [])).pending = []) ∧
    (State.reset.phase ≠ .busy ∧ State.reset.pending = []) := by decide

theorem witness_EncodeAndDecodeAreLatched :
    State.reset.phase ≠ .busy ∧ (inError .capacityExceeded).phase ≠ .busy ∧ inDone.phase ≠ .busy := by decide

theorem witness_ReservedCommandRaisesIllegalCommand :
    State.reset.phase ≠ .busy ∧ (busyOn .encode []).phase = .busy := by decide

theorem witness_CommandWrittenWhileBusyIsIgnored : (busyOn .encode []).phase = .busy := by decide

/-- Each command from reset, where it completes. -/
theorem witness_CommandsLeaveAllButStatusAndLatch :
    exec .nop State.reset = .next State.reset ∧
    exec .encode State.reset = .next { State.reset with cmdl := .encode, err := none, phase := .busy } ∧
    exec .decode State.reset = .next { State.reset with cmdl := .decode, err := none, phase := .busy } ∧
    exec .reserved State.reset = .next { State.reset with phase := .error, err := some .illegalCommand } :=
  ⟨rfl, rfl, rfl, rfl⟩

/-! ### Witnesses: STATUS and reset -/

theorem witness_StatusTakesOnlyItsNineValues :
    (State.reset.errOnlyInError ∧ State.reset.phase = .idle) ∧
    ((busyOn .encode []).errOnlyInError ∧ (busyOn .encode []).phase = .busy) ∧
    (inDone.errOnlyInError ∧ inDone.phase = .done) ∧
    ((inError .emptyAlphabet).errOnlyInError ∧ (inError .emptyAlphabet).phase = .error) ∧
    ((inError .illegalCommand).errOnlyInError ∧ (inError .illegalCommand).phase = .error) := by decide

theorem reset_inv : State.reset.Inv :=
  ⟨by decide, by decide, List.Pairwise.nil, fun c hc => absurd hc List.not_mem_nil, List.Pairwise.nil,
    fun c hc => absurd hc List.not_mem_nil, by decide, fun h => absurd h (by decide), by decide, by decide⟩

theorem witness_StepKeepsTheInvariant : State.reset.Inv ∧ step State.reset = .next State.reset := ⟨reset_inv, rfl⟩

/-! ### Witnesses: what HOST reads and writes -/

/-- The last byte of each buffer. -/
theorem witness_ReadsOutsideBusyGiveTheContents :
    inDone.phase ≠ .busy ∧ (4095#32 : Word).toNat < inDone.caps.inCap ∧ (4095#32 : Word).toNat < inDone.caps.outCap := by
  decide

/-- The reserved ranges at their four ends; IN and OUT at their last bytes. -/
theorem witness_ReadsWhileBusy :
    (busyOn .encode []).errOnlyInError ∧ (busyOn .encode []).phase = .busy ∧
    (4095#32 : Word).toNat < (busyOn .encode []).caps.inCap ∧ (4095#32 : Word).toNat < (busyOn .encode []).caps.outCap ∧
    (0x01C#32 : Word).toNat % 4 = 0 ∧ 0x01C ≤ (0x01C#32 : Word).toNat ∧ (0x01C#32 : Word).toNat ≤ 0x3FC ∧
    (0x3FC#32 : Word).toNat % 4 = 0 ∧ 0x01C ≤ (0x3FC#32 : Word).toNat ∧ (0x3FC#32 : Word).toNat ≤ 0x3FC ∧
    (0xC00#32 : Word).toNat % 4 = 0 ∧ 0xC00 ≤ (0xC00#32 : Word).toNat ∧ (0xC00#32 : Word).toNat ≤ 0xFFC ∧
    (0xFFC#32 : Word).toNat % 4 = 0 ∧ 0xC00 ≤ (0xFFC#32 : Word).toNat ∧ (0xFFC#32 : Word).toNat ≤ 0xFFC := by decide

theorem witness_ReservedOffsetsReadZeroAndIgnoreWrites :
    ((0x3FC#32 : Word).toNat % 4 = 0 ∧ 0x01C ≤ (0x3FC#32 : Word).toNat ∧ (0x3FC#32 : Word).toNat ≤ 0x3FC) ∧
    ((0xC00#32 : Word).toNat % 4 = 0 ∧ 0xC00 ≤ (0xC00#32 : Word).toNat ∧ (0xC00#32 : Word).toNat ≤ 0xFFC) := by decide

/-- Clause 1: a read from each space has a next state; clause 2: the register after IN_LEN, and the last offset; clause 3:
the last byte of OUT. -/
theorem witness_ReadsChangeNoStateAndOtherWritesAreIgnored :
    hostStep (.rdReg 0x00C#32) inDone = .next (inDone.see (.word 17#32)) ∧
    hostStep (.rdIn 4095#32) inDone = .next (inDone.see (.byte (Config.freeByte 0 4095))) ∧
    hostStep (.rdOut 4095#32) inDone = .next (inDone.see (.byte (Config.freeByte 1 4095))) ∧
    ((0x00C#32 : Word).toNat % 4 = 0 ∧ (0x00C#32 : Word).toNat < 4096 ∧ 0x00C#32 ≠ 0x000#32 ∧ 0x00C#32 ≠ 0x008#32) ∧
    ((0xFFC#32 : Word).toNat % 4 = 0 ∧ (0xFFC#32 : Word).toNat < 4096 ∧ 0xFFC#32 ≠ 0x000#32 ∧ 0xFFC#32 ≠ 0x008#32) ∧
    (4095#32 : Word).toNat < inDone.caps.outCap :=
  ⟨rfl, rfl, rfl, by decide, by decide, by decide⟩

theorem witness_InByteWriteStoresItsByteOnly :
    (4095#32 : Word).toNat < (busyOn .encode []).caps.inCap ∧ (5 : Nat) ≠ (4095#32 : Word).toNat := by decide

/-- A reset, a write to IN while BUSY, a write to IN_LEN while BUSY, a write to IN while IDLE, and a completion step. -/
theorem witness_HazardIsStickyAndSetByInputWritesWhileBusy :
    (schedule (asking [.reset] State.reset) = .host .reset State.reset ∧ completes (asking [.reset] State.reset)) ∧
    (schedule (hostFirst (asking [.wrIn 0#32 7#8] (busyOn .encode aaab))) = .host (.wrIn 0#32 7#8) (busyOn .encode aaab) ∧
      completes (hostFirst (asking [.wrIn 0#32 7#8] (busyOn .encode aaab)))) ∧
    (schedule (hostFirst (asking [.wrReg 0x008#32 3#32] (busyOn .encode aaab))) =
        .host (.wrReg 0x008#32 3#32) (busyOn .encode aaab) ∧
      completes (hostFirst (asking [.wrReg 0x008#32 3#32] (busyOn .encode aaab)))) ∧
    (schedule (asking [.wrIn 0#32 7#8] State.reset) = .host (.wrIn 0#32 7#8) State.reset ∧
      completes (asking [.wrIn 0#32 7#8] State.reset)) ∧
    (schedule (busyOn .encode aaab) = .block (busyOn .encode aaab) ∧ completes (busyOn .encode aaab)) :=
  ⟨⟨rfl, by decide⟩, ⟨rfl, by decide⟩, ⟨rfl, by decide⟩, ⟨rfl, by decide⟩, ⟨rfl, by decide +kernel⟩⟩

/-- Each clause at the first value outside. -/
theorem witness_AccessesOutsideTheInterfaceAreRefused :
    (0x001#32 : Word).toNat % 4 ≠ 0 ∧ ((0x1000#32 : Word).toNat % 4 = 0 ∧ (0x1000#32 : Word).toNat ≥ 4096) ∧
    (4096#32 : Word).toNat ≥ State.reset.caps.inCap ∧ (4096#32 : Word).toNat ≥ State.reset.caps.outCap ∧
    refusalOf (hostStep (.rdReg 0x1001#32) State.reset) = some .regMisaligned := by decide

theorem witness_AccessesInsideTheInterfaceComplete :
    (HostAction.wrReg 0xFFC#32 1#32).wellFormed State.reset.caps = true ∧
    (HostAction.wrReg 0xFFC#32 1#32 ≠ .reset) ∧ (∀ w : Word, HostAction.wrReg 0xFFC#32 1#32 ≠ .wrReg 0x000#32 w) ∧
    (HostAction.rdIn 4095#32).wellFormed State.reset.caps = true ∧
    (HostAction.wrOut 4095#32 1#8).wellFormed State.reset.caps = true ∧
    HostAction.poll.wellFormed State.reset.caps = true ∧ HostAction.reset.wellFormed State.reset.caps = true := by
  refine ⟨by decide, by decide, fun w h => ?_, by decide, by decide, by decide, by decide⟩
  injection h with h1 _
  exact absurd h1 (by decide)

theorem witness_PollReadsStatusUntilNotBusy : (busyOn .encode []).phase = .busy ∧ inDone.phase ≠ .busy := by decide

theorem witness_HostActionsLeaveTheResults :
    HostAction.wrOut 4095#32 1#8 ≠ .reset ∧ hostStep (.wrOut 4095#32 1#8) inDone = .next inDone ∧
    HostAction.wrReg 0x000#32 3#32 ≠ .reset ∧
    hostStep (.wrReg 0x000#32 3#32) inDone = .next { inDone with phase := .error, err := some .illegalCommand } :=
  ⟨by decide, rfl, by decide, rfl⟩

/-! ### Witnesses: the sequencer -/

/-- Reset; a CTRL write of each command outside BUSY, and one while BUSY; another action; a completion step; no move. -/
theorem witness_StateChangesOnlyByItsTransitions :
    (schedule (asking [.reset] inDone) = .host .reset inDone ∧ completes (asking [.reset] inDone)) ∧
    (schedule (hostFirst (asking [.wrReg 0x000#32 3#32] (busyOn .encode aaab))) =
        .host (.wrReg 0x000#32 3#32) (busyOn .encode aaab) ∧
      completes (hostFirst (asking [.wrReg 0x000#32 3#32] (busyOn .encode aaab)))) ∧
    (schedule (asking [.wrReg 0x000#32 0xFFFFFFFC#32] inDone) = .host (.wrReg 0x000#32 0xFFFFFFFC#32) inDone ∧
      completes (asking [.wrReg 0x000#32 0xFFFFFFFC#32] inDone)) ∧
    (schedule (asking [.wrReg 0x000#32 5#32] inDone) = .host (.wrReg 0x000#32 5#32) inDone ∧
      completes (asking [.wrReg 0x000#32 5#32] inDone)) ∧
    (schedule (asking [.wrReg 0x000#32 0xFFFFFFFE#32] inDone) = .host (.wrReg 0x000#32 0xFFFFFFFE#32) inDone ∧
      completes (asking [.wrReg 0x000#32 0xFFFFFFFE#32] inDone)) ∧
    (schedule (asking [.wrReg 0x000#32 3#32] inDone) = .host (.wrReg 0x000#32 3#32) inDone ∧
      completes (asking [.wrReg 0x000#32 3#32] inDone)) ∧
    (schedule (asking [.poll] inDone) = .host .poll inDone ∧ completes (asking [.poll] inDone)) ∧
    (schedule (busyOn .encode aaab) = .block (busyOn .encode aaab) ∧ completes (busyOn .encode aaab)) ∧
    (schedule inDone = .none ∧ completes inDone) :=
  ⟨⟨rfl, by decide⟩, ⟨rfl, by decide⟩, ⟨rfl, by decide⟩, ⟨rfl, by decide⟩, ⟨rfl, by decide⟩, ⟨rfl, by decide⟩,
    ⟨rfl, by decide⟩, ⟨rfl, by decide +kernel⟩, ⟨rfl, by decide⟩⟩

/-- A completion with a result, and one with an error. -/
theorem witness_CompletionLeavesTheInput :
    ended (completionStep (busyOn .encode aaab)) (fun _ => true) = true ∧
    ended (completionStep (busyOn .encode [])) (fun _ => true) = true := by decide +kernel

/-- A read of STATUS while BUSY, and a completion step. -/
theorem witness_InputStandsAsAtTheCtrlWrite :
    (hostFirst (asking [.poll] (busyOn .encode aaab))).phase = .busy ∧
    ended (step (hostFirst (asking [.poll] (busyOn .encode aaab)))) (fun t => t.hazard = false) = true ∧
    ended (step (busyOn .encode aaab)) (fun t => t.hazard = false) = true := by decide +kernel

/-- One turn of HOST before BLOCK's. -/
theorem witness_BusyBlockLeavesBusyWithinItsTurns :
    (hostFirst (asking [.rdOut 4095#32] (busyOn .encode aaab))).phase = .busy ∧
    (hostFirst (asking [.rdOut 4095#32] (busyOn .encode aaab))).hostInInterface := by decide +kernel

theorem witness_StepNeverStopsForADutifulHost :
    (asking [.wrIn 4095#32 1#8, .rdReg 0xFFC#32, .poll, .reset] State.reset).hostInInterface := by decide

theorem witness_ErrorCompletionLeavesNoResult :
    runCommand (busyOn .encode []) = .err .emptyAlphabet ∧
    runCommand (busyOn .decode contPathEndsInside) = .err .invalidBitPath := by decide +kernel

/-- An ENCODE and a DECODE that end in ERROR. -/
theorem witness_RunningAgainReportsTheSameError :
    (busyOn .encode []).phase = .busy ∧
    ended (completionStep (busyOn .encode [])) (fun t => t.phase = .error && t.err = some .emptyAlphabet) = true ∧
    (busyOn .decode []).phase = .busy ∧
    ended (completionStep (busyOn .decode [])) (fun t => t.phase = .error && t.err = some .malformedContainer) = true := by
  decide +kernel

/-- Two states that differ in OUT, in the result registers and in IN beyond IN_LEN; completions in DONE. -/
theorem witness_CommandDependsOnItsInputAlone :
    let s := busyOn .encode aaab
    let s' := { s with inBuf := s.inBuf.write 4 9#8, outBuf := s.outBuf.write 0 9#8, freq := freqAaab, outLen := 3#32 }
    s'.caps = s.caps ∧ s'.cmdl = s.cmdl ∧ s'.inLen = s.inLen ∧
    (∀ k : Nat, k < s.inLen.toNat → s'.inBuf.read k = s.inBuf.read k) ∧
    ended (completionStep s) (fun t => t.phase = .done) = true := by
  refine ⟨rfl, rfl, rfl, fun k hk => ?_, by decide +kernel⟩
  have h4 : k < 4 := by simpa [busyOn, ready, aaab] using hk
  exact read_write_other _ (by omega) _

/-! ### Witnesses: ENCODE -/

/-- OUT_CAP = 17, the smallest in which the container of "aaab" fits. -/
theorem witness_EncodeLeavesTheContainerAndTheTables :
    let s := withOutCap 17 (ready aaab)
    s.caps.Legal ∧ s.hazard = false ∧ s.phase ≠ .busy ∧ 0 < s.inLen.toNat ∧ s.inLen.toNat ≤ s.caps.inCap ∧
    alphabet (freqAnalyze s.input) = 0x61#8 :: [0x62#8] ∧ (0x61#8 :: [0x62#8] : List Byte).length ≤ 255 ∧
    6 + 5 * (0x61#8 :: [0x62#8] : List Byte).length +
      payloadLength (codedLength s.input (codeGen (buildTree (freqAnalyze s.input) 0x61#8 [0x62#8])) / 8)
        (codedLength s.input (codeGen (buildTree (freqAnalyze s.input) 0x61#8 [0x62#8])) % 8) ≤ s.caps.outCap := by
  decide +kernel

/-- L2.9 and L2.4, clause by clause: IN_LEN = IN_CAP + 1; IN_LEN = 0; all 256 symbols; "aaab" with OUT_CAP = 16. -/
theorem witness_EncodeReportsTheFirstErrorInOrder :
    (withInCap 3 (ready aaab)).inLen.toNat > (withInCap 3 (ready aaab)).caps.inCap ∧
    ((ready []).inLen.toNat ≤ (ready []).caps.inCap ∧ (ready []).inLen.toNat = 0) ∧
    ((ready allSymbols).inLen.toNat ≤ (ready allSymbols).caps.inCap ∧ (ready allSymbols).input = allSymbols) ∧
    (let s := withOutCap 16 (ready aaab)
    s.inLen.toNat ≤ s.caps.inCap ∧ alphabet (freqAnalyze s.input) = 0x61#8 :: [0x62#8] ∧
      (0x61#8 :: [0x62#8] : List Byte).length ≤ 255 ∧
      s.caps.outCap < 6 + 5 * (0x61#8 :: [0x62#8] : List Byte).length +
        payloadLength (codedLength s.input (codeGen (buildTree (freqAnalyze s.input) 0x61#8 [0x62#8])) / 8)
          (codedLength s.input (codeGen (buildTree (freqAnalyze s.input) 0x61#8 [0x62#8])) % 8)) :=
  ⟨by decide, by decide, ⟨by decide +kernel, ready_input allSymbols (by rw [allSymbols_length]; decide)⟩, by decide +kernel⟩

/-- Every symbol is in the input of the third clause above. -/
theorem witness_EncodeReports_all_symbols : ∀ x : Byte, x ∈ allSymbols := mem_allSymbols

theorem witness_FrequenciesCountOccurrencesAndSumToTheLength :
    aaab.length < 2 ^ 32 ∧ ([0x61#8, 0x61#8] : List Byte).length < 2 ^ 32 ∧ aaab.Perm aaab.reverse := by decide

theorem witness_AlphabetIsTheAscendingListOfPresentSymbols :
    1 ≤ ([0xFF#8] : List Byte).length ∧ ([0xFF#8] : List Byte).length < 2 ^ 32 ∧
    1 ≤ allSymbols.length ∧ allSymbols.length < 2 ^ 32 := by decide +kernel

/-! ### Witnesses: the tree and the codes -/

/-- Two nodes of one weight: the lower sequence number is taken, whichever comes first. -/
theorem witness_ExtractionTakesTheLeastNode :
    popMin (.leaf 1 0x62#8 1#40) [.leaf 0 0x61#8 1#40] = (.leaf 0 0x61#8 1#40, [.leaf 1 0x62#8 1#40]) ∧
    ([.leaf 1 0x62#8 1#40, .leaf 0 0x61#8 1#40] : List Tree).Pairwise (fun y z => y.idx ≠ z.idx) := by decide

/-- One symbol, and 255. -/
theorem witness_TreeUsesTheArenaAsR113Says :
    (0#8 :: [] : List Byte).length ≤ 255 ∧
    (0#8 :: (List.range 254).map fun k => BitVec.ofNat 8 (k + 1)).length ≤ 255 ∧
    (0, Node.leaf 0x61#8 3#40) ∈ (buildTree freqAaab 0x61#8 [0x62#8]).arena ∧
    (2, Node.internal 4#40 1 0) ∈ (buildTree freqAaab 0x61#8 [0x62#8]).arena := by decide +kernel

/-- "aaab", and the greatest frequencies: 255 symbols of 2^32 - 1. -/
theorem witness_WeightsAreExactSums :
    alphabet freqAaab = 0x61#8 :: [0x62#8] ∧ (0x61#8 :: [0x62#8] : List Byte).length ≤ 255 ∧
    (2, Node.internal 4#40 1 0) ∈ (buildTree freqAaab 0x61#8 [0x62#8]).arena ∧
    alphabet (tableOf fun x => if x = 0xFF#8 then 0#32 else 0xFFFFFFFF#32) =
      0#8 :: (List.range 254).map fun k => BitVec.ofNat 8 (k + 1) := by decide +kernel

theorem witness_CodesAreThePathsToTheLeaves :
    alphabet freqAaab = 0x61#8 :: [0x62#8] ∧ ([0x62#8] : List Byte) ≠ [] ∧
    codeOf 0x61#8 (codeGen (buildTree freqAaab 0x61#8 [0x62#8])) = some [true] ∧
    alphabet (freqAnalyze [0x41#8]) = 0x41#8 :: [] := by decide +kernel

theorem witness_CodesArePrefixFree :
    alphabet freqAaab = 0x61#8 :: [0x62#8] ∧ ([0x62#8] : List Byte) ≠ [] ∧ 0x61#8 ≠ 0x62#8 ∧
    codeOf 0x61#8 (codeGen (buildTree freqAaab 0x61#8 [0x62#8])) = some [true] ∧
    codeOf 0x62#8 (codeGen (buildTree freqAaab 0x61#8 [0x62#8])) = some [false] := by decide +kernel

/-- "aaaaabbc" (L2.2): two codes of the greatest length for three symbols. -/
theorem witness_CodeLengthsFitTheirField :
    let F := freqAnalyze [0x61#8, 0x61#8, 0x61#8, 0x61#8, 0x61#8, 0x62#8, 0x62#8, 0x63#8]
    alphabet F = 0x61#8 :: [0x62#8, 0x63#8] ∧ (0x61#8 :: [0x62#8, 0x63#8] : List Byte).length ≤ 255 ∧
    codeOf 0x63#8 (codeGen (buildTree F 0x61#8 [0x62#8, 0x63#8])) = some [false, false] := by decide +kernel

theorem witness_CodedLengthIsAtMostEightBitsAByte :
    aaab.length < 2 ^ 32 ∧ alphabet (freqAnalyze aaab) = 0x61#8 :: [0x62#8] ∧
    (0x61#8 :: [0x62#8] : List Byte).length ≤ 255 ∧
    translateBytes (codeGen (buildTree (freqAnalyze aaab) 0x61#8 [0x62#8])) aaab = some [true, true, true, false] := by
  decide +kernel

/-- "abc" (L2.2): 3 = Internal(2, 0, 1) and 4 = Internal(3, 2, 3). -/
theorem witness_ChildrenStandInTheOrderOfExtraction :
    let T := buildTree (freqAnalyze [0x61#8, 0x62#8, 0x63#8]) 0x61#8 [0x62#8, 0x63#8]
    (0x61#8 :: [0x62#8, 0x63#8] : List Byte).length ≤ 255 ∧ 3 < 4 ∧
    (3, Node.internal 2#40 0 1) ∈ T.arena ∧ (4, Node.internal 3#40 2 3) ∈ T.arena := by decide +kernel

/-! ### Witnesses: the bit string and the container -/

/-- The last bit, the first padding bit, and a partial byte of 7 bits with either padding. -/
theorem witness_PayloadBitsStandWhereR80Says :
    (8 : Nat) < (List.replicate 9 true : Bits).length ∧
    ((List.replicate 9 true : Bits).length ≤ 9 ∧ 9 < 8 * (packBits (List.replicate 9 true)).length) ∧
    ((7 : Nat) ≤ 7 ∧ ∀ i : Nat, i < 7 → (0xFE#8 : Byte).getLsbD (7 - i) = (0xFF#8 : Byte).getLsbD (7 - i)) := by decide

/-- One symbol with no payload; 255 symbols with a partial byte. -/
theorem witness_WrittenContainerHasTheLayout :
    (1 ≤ ([0x41#8] : List Byte).length ∧ ([0x41#8] : List Byte).length ≤ 255 ∧ (0 : Nat) < 2 ^ 32 ∧ (0 : Nat) ≤ 7 ∧
      ([] : List Byte).length = payloadLength 0 0) ∧
    (1 ≤ (allSymbols.take 255).length ∧ (allSymbols.take 255).length ≤ 255 ∧ (1 : Nat) < 2 ^ 32 ∧ (7 : Nat) ≤ 7 ∧
      ([0xFF#8, 0xFE#8] : List Byte).length = payloadLength 1 7) := by decide +kernel

theorem witness_ReadTableReadsTheFields :
    readTable contK = some (tableIn contK) ∧ 1 < countField contK ∧
    (∀ i : Nat, i < countField contK → pairSymbol contK i ≠ 0x63#8) :=
  ⟨readTable_tableIn (by decide +kernel), by decide +kernel, by decide +kernel⟩

theorem witness_ReadTableOfWriteContainerIsTheTable :
    1 ≤ (alphabet freqAaab).length ∧ (alphabet freqAaab).length ≤ 255 ∧ (0 : Nat) < 2 ^ 32 ∧ (7 : Nat) ≤ 7 ∧
    ([0xE0#8] : List Byte).length = payloadLength 0 7 := by decide +kernel

/-! ### Witnesses: DECODE -/

/-- K with OUT_CAP = 4, by the walk, and the single-symbol container with OUT_CAP = 10. -/
theorem witness_DecodeLeavesTheBytesAndTheTables :
    (let s := withOutCap 4 (ready contK)
    let tab := tableIn contK
    s.caps.Legal ∧ s.hazard = false ∧ s.phase ≠ .busy ∧ s.inLen.toNat ≤ s.caps.inCap ∧ readTable s.input = some tab ∧
      alphabet tab.F = 0x61#8 :: [0x62#8] ∧ tab.n ≠ 1#8 ∧
      walkFrom (buildTree tab.F 0x61#8 [0x62#8]) (buildTree tab.F 0x61#8 [0x62#8])
        (unpackBits tab.payload tab.bc.toNat tab.md.toNat) = some aaab ∧ aaab.length = freqSum tab.F ∧
      aaab.length ≤ s.caps.outCap) ∧
    (let s := withOutCap 10 (ready contSingle)
    let tab := tableIn contSingle
    s.caps.Legal ∧ s.hazard = false ∧ s.phase ≠ .busy ∧ s.inLen.toNat ≤ s.caps.inCap ∧ readTable s.input = some tab ∧
      alphabet tab.F = 0x41#8 :: [] ∧ tab.n = 1#8 ∧ tab.bc = 0#32 ∧ tab.md = 0#8 ∧
      List.replicate 10 0x41#8 = List.replicate (FreqTable.at tab.F 0x41#8).toNat 0x41#8 ∧
      (List.replicate 10 0x41#8).length ≤ s.caps.outCap) := by
  refine ⟨⟨by decide, by decide, by decide, by decide, ?_, by decide +kernel⟩,
    ⟨by decide, by decide, by decide, by decide, ?_, by decide +kernel⟩⟩
  · exact (congrArg readTable (ready_input contK (by decide))).trans (readTable_tableIn (by decide +kernel))
  · exact (congrArg readTable (ready_input contSingle (by decide))).trans (readTable_tableIn (by decide +kernel))

/-- The first three clauses: IN_LEN = IN_CAP + 1; the empty container; a single-symbol container with a payload, and one
with OUT_CAP = 9 (L2.6). -/
theorem witness_DecodeReportsTheFirstErrorInOrder :
    (withInCap 16 (ready contK)).inLen.toNat > (withInCap 16 (ready contK)).caps.inCap ∧
    ((ready []).inLen.toNat ≤ (ready []).caps.inCap ∧ (ready []).input.length = 0) ∧
    ((ready contSinglePayload).inLen.toNat ≤ (ready contSinglePayload).caps.inCap ∧
      (readTable (ready contSinglePayload).input).isSome = true ∧ countField (ready contSinglePayload).input = 1 ∧
      moduloField (ready contSinglePayload).input ≠ 0#8) ∧
    (let s := withOutCap 9 (ready contSingle)
    s.inLen.toNat ≤ s.caps.inCap ∧ ¬ IllegalContainer s.input ∧ countField s.input = 1 ∧
      byteCountField s.input = 0#32 ∧ moduloField s.input = 0#8 ∧ (pairFreq s.input 0).toNat > s.caps.outCap) := by
  decide +kernel

/-- The single-symbol container with a payload is one that ReadTable accepts. -/
theorem witness_DecodeReports_single_payload : ¬ IllegalContainer (ready contSinglePayload).input := by decide +kernel

/-- The last clause: the walk ends inside the tree; a count of 3 against 4; a count of 4 with OUT_CAP = 3. -/
theorem witness_DecodeReports_walk :
    (let s := ready contPathEndsInside
    let tab := tableIn contPathEndsInside
    s.inLen.toNat ≤ s.caps.inCap ∧ readTable s.input = some tab ∧ countField s.input ≠ 1 ∧
      alphabet tab.F = 0x61#8 :: [0x62#8, 0x63#8] ∧
      walkFrom (buildTree tab.F 0x61#8 [0x62#8, 0x63#8]) (buildTree tab.F 0x61#8 [0x62#8, 0x63#8])
        (unpackBits tab.payload tab.bc.toNat tab.md.toNat) = none) ∧
    (let s := ready contCountWrong
    let tab := tableIn contCountWrong
    s.inLen.toNat ≤ s.caps.inCap ∧ readTable s.input = some tab ∧ countField s.input ≠ 1 ∧
      alphabet tab.F = 0x61#8 :: [0x62#8] ∧
      walkFrom (buildTree tab.F 0x61#8 [0x62#8]) (buildTree tab.F 0x61#8 [0x62#8])
        (unpackBits tab.payload tab.bc.toNat tab.md.toNat) = some [0x61#8, 0x61#8, 0x61#8] ∧
      ([0x61#8, 0x61#8, 0x61#8] : List Byte).length ≠ freqSum tab.F) ∧
    (let s := withOutCap 3 (ready contK)
    let tab := tableIn contK
    s.inLen.toNat ≤ s.caps.inCap ∧ readTable s.input = some tab ∧ countField s.input ≠ 1 ∧
      alphabet tab.F = 0x61#8 :: [0x62#8] ∧
      walkFrom (buildTree tab.F 0x61#8 [0x62#8]) (buildTree tab.F 0x61#8 [0x62#8])
        (unpackBits tab.payload tab.bc.toNat tab.md.toNat) = some aaab ∧
      aaab.length = freqSum tab.F ∧ aaab.length > s.caps.outCap) := by
  refine ⟨⟨by decide, ?_, by decide +kernel⟩, ⟨by decide, ?_, by decide +kernel⟩, ⟨by decide, ?_, by decide +kernel⟩⟩
  · exact (congrArg readTable (ready_input contPathEndsInside (by decide))).trans (readTable_tableIn (by decide +kernel))
  · exact (congrArg readTable (ready_input contCountWrong (by decide))).trans (readTable_tableIn (by decide +kernel))
  · exact (congrArg readTable (ready_input contK (by decide))).trans (readTable_tableIn (by decide +kernel))

theorem witness_WalkOfTranslationIsTheInput :
    alphabet freqAaab = 0x61#8 :: [0x62#8] ∧ ([0x62#8] : List Byte) ≠ [] ∧
    translateBytes (codeGen (buildTree freqAaab 0x61#8 [0x62#8])) aaab = some [true, true, true, false] := by decide +kernel

theorem witness_WalkCanFailOnlyAtItsEnd : ([0x62#8] : List Byte) ≠ [] := by decide

/-- OUT_CAP = 17, the smallest for "aaab". -/
theorem witness_DecodeOfEncodeIsTheBuffer :
    (17 : Nat) < 2 ^ 32 ∧ 1 ≤ aaab.length ∧ aaab.length < 2 ^ 32 ∧ aaab.dedup.length ≤ 255 ∧ aaab.length ≤ 17 ∧
    encodeBytes 17 aaab ≠ .err .capacityExceeded := by decide +kernel

theorem witness_DecodeOfEncodedOutputRestoresTheInput :
    let s := withInCap 17 (withOutCap 17 (busyOn .encode aaab))
    let s' := withInCap 17 (withOutCap 17 (busyOn .decode contK))
    s.caps.Legal ∧ s.hazard = false ∧ s.phase = .busy ∧ s.cmdl = .encode ∧
    ended (completionStep s) (fun t => t.phase = .done && decide (t.outLen.toNat ≤ s.caps.inCap) &&
      s'.inLen = t.outLen && s'.input = t.output) = true ∧
    s.inLen.toNat ≤ s.caps.outCap ∧ s'.caps = s.caps ∧ s'.hazard = false ∧ s'.phase = .busy ∧ s'.cmdl = .decode := by
  decide +kernel

theorem witness_TruncatedContainerIsMalformed : (17 : Nat) < 2 ^ 32 ∧ ∃ r : Result, encodeBytes 17 aaab = .ok r := by
  have h : (resultOf (encodeBytes 17 aaab)).isSome = true := by decide +kernel
  obtain ⟨r, hr⟩ := Option.isSome_iff_exists.1 h
  exact ⟨by decide, r, ok_of_resultOf hr⟩

end Sys2Proof.Tests
end

section
/-! PROOF. Every step keeps the invariant of the machine (`State.Inv`): each operation keeps it, and a step is one of
the operations (Laws/Step.lean). -/

namespace Sys2Proof.Machine

/-! ### What HOST does keeps the invariant -/

/-- The fields of which the invariant speaks, beside the number of draws. -/
def State.invFields (s : State) : Config.Caps × Phase × Option ErrorCode × Word × Memory × Memory :=
  (s.caps, s.phase, s.err, s.outLen, s.inBuf, s.outBuf)

/-- An operation that keeps those fields and takes no draw back keeps the invariant. -/
theorem State.Inv.of_invFields {s t : State} (h : s.Inv) (fields : t.invFields = s.invFields)
    (draws : s.draws ≤ t.draws) : t.Inv := by
  cases s
  cases t
  cases fields
  exact { h with inFill := h.inFill.trans_le draws, outFill := h.outFill.trans_le draws }

theorem see_inv {s : State} (h : s.Inv) (v : ReadValue) : (s.see v).Inv := h.of_invFields rfl le_rfl

theorem drawn_inv {s : State} (h : s.Inv) : s.drawn.Inv := h.of_invFields rfl (Nat.le_succ _)

theorem hostReadReg_inv {s : State} (h : s.Inv) (off : Word) : (hostReadReg off s).Inv := by
  unfold hostReadReg
  split
  · exact drawn_inv (see_inv h _)
  · exact see_inv h _

theorem hostReadIn_inv {s : State} (h : s.Inv) (off : Word) : (hostReadIn off s).Inv := see_inv h _

theorem hostReadOut_inv {s : State} (h : s.Inv) (off : Word) : (hostReadOut off s).Inv := by
  unfold hostReadOut
  split
  · exact drawn_inv (see_inv h _)
  · exact see_inv h _

theorem hostPoll_inv {s : State} (h : s.Inv) : (hostPoll s).Inv := by
  have ht : (s.see (.word (statusWord s))).Inv := see_inv h _
  unfold hostPoll
  split
  · exact ht.of_invFields rfl le_rfl
  · exact ht

theorem hostWriteInLen_inv {s : State} (h : s.Inv) (w : Word) : (hostWriteInLen w s).Inv := h.of_invFields rfl le_rfl

/-- A write to IN inside the interface keeps IN canonical and inside its size (R52). -/
theorem hostWriteIn_inv {s : State} (h : s.Inv) {off : Word} (hoff : off.toNat < s.caps.inCap) (b : Byte) :
    (hostWriteIn off b s).Inv :=
  { h with inWf := write_wf h.inWf off.toNat b, inWithin := write_within h.inWithin hoff b }

theorem resetInput_inv {s : State} (h : s.Inv) : (resetInput s).Inv where
  caps := h.caps
  err := ⟨nofun, nofun⟩
  inWf := unspecified_wf _
  inWithin := unspecified_within _ _
  outWf := unspecified_wf _
  outWithin := unspecified_within _ _
  outLen := Nat.zero_le _
  errorLen := fun _ _ => rfl
  inFill := Nat.lt_add_of_pos_right (Nat.succ_pos 2)
  outFill := Nat.lt_add_of_pos_right (Nat.succ_pos 1)

/-! ### A command keeps the invariant -/

theorem setBusy_inv {s : State} (h : s.Inv) : (setBusy s).Inv :=
  { h with
    err := ⟨nofun, nofun⟩
    errorLen := nofun }

/-- R97 changes STATUS only: OUT_LEN may be above 0 in ERROR after it, and after it alone. -/
theorem setError_illegalCommand_inv {s : State} (h : s.Inv) : (setError .illegalCommand s).Inv :=
  { h with
    err := ⟨fun _ => rfl, fun _ => rfl⟩
    errorLen := fun _ he => absurd rfl he }

theorem exec_inv {i : Instr} {s t : State} (h : s.Inv) (hx : exec i s = .next t) : t.Inv := by
  obtain rfl | ⟨-, c, rfl⟩ | ⟨-, rfl⟩ := exec_cases hx
  · exact h
  · exact setBusy_inv (h.of_invFields rfl le_rfl)
  · exact setError_illegalCommand_inv h

/-- An error completion leaves OUT unspecified, drawn here, and OUT_LEN 0 (R42, R153). -/
theorem errorCompletion_inv {s : State} (h : s.Inv) (e : ErrorCode) : (errorCompletion e s).Inv :=
  { h with
    err := ⟨fun _ => rfl, fun _ => rfl⟩
    outWf := unspecified_wf _
    outWithin := unspecified_within _ _
    outLen := Nat.zero_le _
    errorLen := fun _ _ => rfl
    inFill := h.inFill.trans (Nat.lt_succ_self _)
    outFill := Nat.lt_succ_self _ }

/-- A result that fits in OUT keeps OUT canonical and inside its size, and OUT_LEN within OUT_CAP (R28, R98). -/
theorem finishCommand_inv {s : State} (h : s.Inv) {r : Result} (hr : r.out.length ≤ s.caps.outCap) :
    (finishCommand r s).Inv :=
  { h with
    err := ⟨nofun, nofun⟩
    outWf := storePrefix_wf h.outWf r.out
    outWithin := storePrefix_within h.outWithin hr
    outLen := (BitVec.toNat_ofNat r.out.length 32).trans_le ((Nat.mod_le _ _).trans hr)
    errorLen := nofun }

/-! ### The two agents keep the invariant -/

theorem writeReg_inv {off w : Word} {s t : State} (h : s.Inv) (hw : writeReg off w s = .next t) : t.Inv := by
  obtain ⟨-, hx⟩ | ⟨-, rfl⟩ | rfl := writeReg_cases hw
  · exact exec_inv h hx
  · exact hostWriteInLen_inv h w
  · exact h

theorem hostStep_inv {a : HostAction} {s t : State} (h : s.Inv) (ha : hostStep a s = .next t) : t.Inv := by
  obtain ⟨_, _, -, -, hw⟩ | ⟨off, -, -, rfl⟩ | ⟨_, b, -, hoff, rfl⟩ | ⟨off, -, -, rfl⟩ |
    ⟨off, -, -, rfl⟩ | ⟨_, _, -, -, rfl⟩ | ⟨-, rfl⟩ | ⟨-, rfl⟩ := hostStep_cases ha
  · exact writeReg_inv h hw
  · exact hostReadReg_inv h off
  · exact hostWriteIn_inv h hoff b
  · exact hostReadIn_inv h off
  · exact hostReadOut_inv h off
  · exact h
  · exact hostPoll_inv h
  · exact resetInput_inv h

theorem completionStep_inv {s t : State} (h : s.Inv) (hc : completionStep s = .next t) : t.Inv := by
  obtain ⟨r, hr, rfl⟩ | ⟨e, -, rfl⟩ := completionStep_cases hc
  · exact finishCommand_inv h (runCommand_out_le hr)
  · exact errorCompletion_inv h e

/-- Scheduling takes from HOST's actions and the turns only, so the agent that moves starts from the invariant. -/
theorem step_inv {s t : State} (h : s.Inv) (hs : step s = .next t) : t.Inv := by
  obtain ⟨a, u, hu, ha⟩ | ⟨u, hu, hc⟩ | ⟨-, rfl⟩ := step_cases hs
  · obtain ⟨as, ts, -, rfl, -⟩ := schedule_host hu
    refine hostStep_inv ?_ ha
    exact h.of_invFields rfl le_rfl
  · obtain ⟨-, rfl⟩ := schedule_block hu
    refine completionStep_inv ?_ hc
    exact h.of_invFields rfl le_rfl
  · exact h

/-- Settles O15, by the agent that moves. -/
theorem stepKeepsTheInvariant : Obligations.StepKeepsTheInvariant := fun _ _ => step_inv

end Sys2Proof.Machine
end

section
/-! PROOF. What HOST's accesses to the registers and the buffers answer, said once for each kind of access
(10_state.md rules R22 to R36 and R41), and the
statements on reads and writes, each by the rule for its access. -/

namespace Sys2Proof.Machine

/-! ### STATUS -/

theorem phaseBits_lt (p : Phase) : phaseBits p < 2 ^ 2 := by cases p <;> decide

theorem errBits_le (e : Option ErrorCode) : errBits e ≤ 6 := by
  rcases e with _ | e
  · decide
  · cases e <;> decide

/-- ERR stands in bits [7:4] of STATUS and STATE in bits [1:0] (R26, R73). -/
theorem statusWord_toNat (s : State) : (statusWord s).toNat = 16 * errBits s.err + phaseBits s.phase := by
  have hp := phaseBits_lt s.phase
  have he := errBits_le s.err
  have hor : errBits s.err <<< 4 ||| phaseBits s.phase = errBits s.err <<< 4 + phaseBits s.phase :=
    (Nat.shiftLeft_add_eq_or_of_lt (hp.trans (by decide)) _).symm
  have hep : errBits s.err % 2 ^ 32 = errBits s.err := Nat.mod_eq_of_lt (by omega)
  have hpp : phaseBits s.phase % 2 ^ 32 = phaseBits s.phase := Nat.mod_eq_of_lt (by omega)
  have hsh : errBits s.err <<< 4 % 2 ^ 32 = errBits s.err <<< 4 :=
    Nat.mod_eq_of_lt (by rw [Nat.shiftLeft_eq]; omega)
  rw [statusWord, BitVec.toNat_or, BitVec.toNat_shiftLeft, BitVec.toNat_ofNat, BitVec.toNat_ofNat, hep, hpp, hsh, hor,
    Nat.shiftLeft_eq, Nat.mul_comm]

/-- Bits [3:2] of STATUS read 0 (R26). -/
theorem statusWord_bits_3_2 (s : State) : (statusWord s).extractLsb' 2 2 = 0#2 := by
  have hp := phaseBits_lt s.phase
  apply BitVec.eq_of_toNat_eq
  rw [BitVec.extractLsb'_toNat, statusWord_toNat, Nat.shiftRight_eq_div_pow, BitVec.toNat_ofNat]
  omega

/-- Bits [31:8] of STATUS read 0 (R26). -/
theorem statusWord_bits_31_8 (s : State) : (statusWord s).extractLsb' 8 24 = 0#24 := by
  have hp := phaseBits_lt s.phase
  have he := errBits_le s.err
  apply BitVec.eq_of_toNat_eq
  rw [BitVec.extractLsb'_toNat, statusWord_toNat, Nat.shiftRight_eq_div_pow, BitVec.toNat_ofNat]
  omega

/-- While BUSY, STATUS reads 1: ERR is 0 outside ERROR (R25, R41). -/
theorem statusWord_busy {s : State} (he : s.errOnlyInError) (hb : s.phase = .busy) : statusWord s = 0x00000001#32 := by
  have hnone : s.err = none := by
    have h := mt he.1 (by simp [hb])
    simpa using h
  rw [statusWord, hnone, hb]
  rfl

/-! ### Offsets and registers -/

/-- A register access at `off` is inside the interface and reaches the register `r` (R22, R51). -/
def Reaches (off : Word) (r : Reg) : Prop := regRefusal off = none ∧ regOf off = r

theorem regRefusal_eq_none {off : Word} (aligned : off.toNat % 4 = 0) (inSpace : off.toNat < 4096) :
    regRefusal off = none := by
  rw [regRefusal, if_neg (not_not_intro aligned), if_neg (Nat.not_le.2 inSpace)]

theorem regRefusal_of_regOffsetOk {off : Word} (h : regOffsetOk off = true) : regRefusal off = none := by
  obtain ⟨inSpace, aligned⟩ : off.toNat < 4096 ∧ off.toNat % 4 = 0 := by simpa [regOffsetOk] using h
  exact regRefusal_eq_none aligned inSpace

theorem reaches_freq (x : Byte) : Reaches (BitVec.ofNat 32 (0x400 + 4 * x.toNat)) (.freq x) := by
  have hx := x.isLt
  have ho : (BitVec.ofNat 32 (0x400 + 4 * x.toNat)).toNat = 0x400 + 4 * x.toNat := by
    rw [BitVec.toNat_ofNat]; omega
  have hrange : 0x400 ≤ 0x400 + 4 * x.toNat ∧ 0x400 + 4 * x.toNat ≤ 0x7FC := by omega
  have hidx : (0x400 + 4 * x.toNat - 0x400) / 4 = x.toNat := by omega
  refine ⟨regRefusal_eq_none (by omega) (by omega), ?_⟩
  simp only [regOf, ho]
  iterate 7 rw [if_neg (by omega)]
  rw [if_pos hrange, hidx, BitVec.ofNat_toNat, BitVec.setWidth_eq]

theorem reaches_codeLen (x : Byte) : Reaches (BitVec.ofNat 32 (0x800 + 4 * x.toNat)) (.codeLen x) := by
  have hx := x.isLt
  have ho : (BitVec.ofNat 32 (0x800 + 4 * x.toNat)).toNat = 0x800 + 4 * x.toNat := by
    rw [BitVec.toNat_ofNat]; omega
  have hrange : 0x800 ≤ 0x800 + 4 * x.toNat ∧ 0x800 + 4 * x.toNat ≤ 0xBFC := by omega
  have hidx : (0x800 + 4 * x.toNat - 0x800) / 4 = x.toNat := by omega
  refine ⟨regRefusal_eq_none (by omega) (by omega), ?_⟩
  simp only [regOf, ho]
  iterate 8 rw [if_neg (by omega)]
  rw [if_pos hrange, hidx, BitVec.ofNat_toNat, BitVec.setWidth_eq]

theorem reaches_reserved {off : Word} (aligned : off.toNat % 4 = 0)
    (range : 0x01C ≤ off.toNat ∧ off.toNat ≤ 0x3FC ∨ 0xC00 ≤ off.toNat ∧ off.toNat ≤ 0xFFC) :
    Reaches off .reserved := by
  refine ⟨regRefusal_eq_none aligned (by omega), ?_⟩
  simp only [regOf]
  iterate 9 rw [if_neg (by omega)]

/-- CTRL stands at one offset only (R22). -/
theorem regOf_eq_ctrl {off : Word} : regOf off = .ctrl ↔ off = 0x000#32 := by
  rw [← BitVec.toNat_inj]
  simp only [regOf]
  split_ifs <;> simp [*]

/-- IN_LEN stands at one offset only (R22). -/
theorem regOf_eq_inLen {off : Word} : regOf off = .inLen ↔ off = 0x008#32 := by
  rw [← BitVec.toNat_inj]
  simp only [regOf]
  split_ifs <;> simp [*]

/-! ### Register accesses -/

/-- Outside BUSY, and of a register that holds no result in every state, a read gives what the register holds. -/
theorem rdReg_gives {s : State} {off : Word} {r : Reg} (hr : Reaches off r)
    (h : s.phase ≠ .busy ∨ r.isResult = false) :
    hostStep (.rdReg off) s = .next (s.see (.word (regValue s r))) := by
  obtain ⟨href, rfl⟩ := hr
  have hc : ¬ (s.phase = .busy ∧ (regOf off).isResult = true) := by
    rintro ⟨hb, hres⟩
    exact h.elim (· hb) fun hres' => Bool.false_ne_true (hres'.symm.trans hres)
  simp [hostStep, href, hostReadReg, if_neg hc]

/-- While BUSY a read of a result register gives a word drawn for it (R41). -/
theorem rdReg_draws {s : State} {off : Word} {r : Reg} (hr : Reaches off r) (hb : s.phase = .busy)
    (hres : r.isResult = true) :
    hostStep (.rdReg off) s = .next (s.see (.word (Config.freeWord s.draws off.toNat))).drawn := by
  obtain ⟨href, rfl⟩ := hr
  simp [hostStep, href, hostReadReg, hb, hres]

theorem wrReg_eq_writeReg {off : Word} {r : Reg} (hr : Reaches off r) (w : Word) (s : State) :
    hostStep (.wrReg off w) s = writeReg off w s := by
  simp [hostStep, hr.1]

theorem wrReg_inLen (w : Word) (s : State) : hostStep (.wrReg 0x008#32 w) s = .next (hostWriteInLen w s) := rfl

theorem wrReg_ctrl (w : Word) (s : State) : hostStep (.wrReg 0x000#32 w) s = exec (decode w) s := rfl

/-- A write to any register but CTRL and IN_LEN is ignored (R60). -/
theorem wrReg_ignored {off : Word} {r : Reg} (hr : Reaches off r) (hctrl : r ≠ .ctrl) (hlen : r ≠ .inLen) (w : Word)
    (s : State) : hostStep (.wrReg off w) s = .next s := by
  rw [wrReg_eq_writeReg hr, writeReg]
  obtain ⟨-, rfl⟩ := hr
  split
  · exact absurd ‹_› hctrl
  · exact absurd ‹_› hlen
  · rfl

/-! ### Buffer accesses -/

theorem wrIn_next {s : State} {off : Word} (h : off.toNat < s.caps.inCap) (b : Byte) :
    hostStep (.wrIn off b) s = .next (hostWriteIn off b s) := if_pos h

theorem rdIn_next {s : State} {off : Word} (h : off.toNat < s.caps.inCap) :
    hostStep (.rdIn off) s = .next (s.see (.byte (s.inBuf.read off.toNat))) := if_pos h

theorem rdOut_next {s : State} {off : Word} (h : off.toNat < s.caps.outCap) :
    hostStep (.rdOut off) s = .next (hostReadOut off s) := if_pos h

theorem wrOut_next {s : State} {off : Word} (h : off.toNat < s.caps.outCap) (b : Byte) :
    hostStep (.wrOut off b) s = .next s := if_pos h

theorem hostReadOut_quiescent {s : State} (hq : s.quiescent) (off : Word) :
    hostReadOut off s = s.see (.byte (s.outBuf.read off.toNat)) := if_neg hq

theorem hostReadOut_busy {s : State} (hb : s.phase = .busy) (off : Word) :
    hostReadOut off s = (s.see (.byte (Config.freeByte s.draws off.toNat))).drawn := if_pos hb

/-! ### The statements on reads and writes -/

/-- Settles O11, by the value of the status word. -/
theorem statusReadsErrAndState : Obligations.StatusReadsErrAndState := by
  have hstatus : Reaches 0x004#32 .status := ⟨rfl, rfl⟩
  refine ⟨fun s => ⟨statusWord_toNat s, statusWord_bits_3_2 s, statusWord_bits_31_8 s, fun w => ?_, ?_⟩, rfl⟩
  · exact wrReg_ignored hstatus nofun nofun w s
  · exact rdReg_gives hstatus (.inr rfl)

/-- Settles O16, by the register that each offset reaches. -/
theorem readsOutsideBusyGiveTheContents : Obligations.ReadsOutsideBusyGiveTheContents := by
  intro s hq
  refine ⟨fun off h => rdIn_next h, fun off h => ?_, ?_⟩
  · rw [rdOut_next h, hostReadOut_quiescent hq]; rfl
  · have gives : ∀ {off : Word} {r : Reg}, Reaches off r →
        hostStep (.rdReg off) s = .next (s.see (.word (regValue s r))) := fun hr => rdReg_gives hr (.inl hq)
    exact ⟨gives (r := .ctrl) ⟨rfl, rfl⟩, gives (r := .status) ⟨rfl, rfl⟩, gives (r := .inLen) ⟨rfl, rfl⟩,
      gives (r := .outLen) ⟨rfl, rfl⟩, gives (r := .symCount) ⟨rfl, rfl⟩, gives (r := .byteCount) ⟨rfl, rfl⟩,
      gives (r := .modulo) ⟨rfl, rfl⟩, fun x => gives (reaches_freq x), fun x => gives (reaches_codeLen x)⟩

/-- Settles O17: a register that holds no result reads as it stands, and every result location draws. -/
theorem readsWhileBusy : Obligations.ReadsWhileBusy := by
  intro s he hb
  have gives : ∀ {off : Word} (r : Reg), Reaches off r → r.isResult = false →
      hostStep (.rdReg off) s = .next (s.see (.word (regValue s r))) := fun _ hr hres => rdReg_gives hr (.inr hres)
  have draws : ∀ {off : Word} (r : Reg), Reaches off r → r.isResult = true →
      hostStep (.rdReg off) s = .next (s.see (.word (Config.freeWord s.draws off.toNat))).drawn :=
    fun _ hr hres => rdReg_draws hr hb hres
  have hstatus := gives (off := 0x004#32) .status ⟨rfl, rfl⟩ rfl
  rw [regValue, statusWord_busy he hb] at hstatus
  refine ⟨hstatus, gives .inLen ⟨rfl, rfl⟩ rfl, fun off h => rdIn_next h, gives .ctrl ⟨rfl, rfl⟩ rfl,
    fun off aligned range => gives .reserved (reaches_reserved aligned range) rfl,
    draws .outLen ⟨rfl, rfl⟩ rfl, draws .symCount ⟨rfl, rfl⟩ rfl, draws .byteCount ⟨rfl, rfl⟩ rfl,
    draws .modulo ⟨rfl, rfl⟩ rfl,
    fun x => ⟨draws _ (reaches_freq x) rfl, draws _ (reaches_codeLen x) rfl⟩, fun off h => ?_⟩
  rw [rdOut_next h, hostReadOut_busy hb]
  rfl

/-- Settles O18: each of these offsets reaches the reserved register. -/
theorem reservedOffsetsReadZeroAndIgnoreWrites : Obligations.ReservedOffsetsReadZeroAndIgnoreWrites := by
  intro s off w aligned range
  have hr := reaches_reserved aligned range
  exact ⟨rdReg_gives hr (.inr rfl), wrReg_ignored hr nofun nofun w s⟩

/-- Settles O20. -/
theorem inLenStoresEveryValueAndReadsItBack : Obligations.InLenStoresEveryValueAndReadsItBack :=
  fun s w => ⟨wrReg_inLen w s, rdReg_gives (r := .inLen) ⟨rfl, rfl⟩ (.inr rfl)⟩

/-- Settles O21, by the rules for a buffer read after a write. -/
theorem inByteWriteStoresItsByteOnly : Obligations.InByteWriteStoresItsByteOnly := by
  intro s off b h
  have hsame : (hostWriteIn off b s).inBuf.read off.toNat = b := read_write_same _ _ _
  refine ⟨hostWriteIn off b s, wrIn_next h b, hsame, fun k hk => read_write_other _ hk _, rfl, ?_⟩
  have hread := rdIn_next (s := hostWriteIn off b s) h
  rwa [hsame] at hread

end Sys2Proof.Machine
end

section
/-! PROOF. What each agent's move leaves as it was, and how a BUSY block comes to its end (10_state.md rules R20, R24,
R28 to R36, R42 and R46).
The schedule says who moves; `hostStep_effect` and `completionStep_cases` say what the move can do. -/

namespace Sys2Proof.Machine

/-! ### Which agent moves -/

theorem schedule_quiescent {s : State} {a : HostAction} {as : List HostAction} (hq : s.quiescent)
    (hp : s.pending = a :: as) : schedule s = .host a { s with pending := as } := by
  simp [schedule, if_neg hq, hp]

theorem schedule_hostTurn {s : State} {a : HostAction} {as : List HostAction} {ts : List Agent} (hb : s.phase = .busy)
    (ht : s.turns = .host :: ts) (hp : s.pending = a :: as) :
    schedule s = .host a { s with pending := as, turns := ts } := by
  simp [schedule, hb, ht, hp]

/-- BLOCK moves while BUSY where HOST has no turn or nothing to do (R20, log entry 7). -/
theorem schedule_blockTurn {s : State} (hb : s.phase = .busy) (h : s.turns.head? ≠ some .host ∨ s.pending = []) :
    schedule s = .block { s with turns := s.turns.tail } := by
  rw [schedule, if_pos hb]
  split
  · rename_i ts a as ht hp
    simp [ht, hp] at h
  · rfl

theorem schedule_idle {s : State} (hq : s.quiescent) (hp : s.pending = []) : schedule s = .none := by
  simp [schedule, if_neg hq, hp]

theorem schedule_host_phase {s u : State} {a : HostAction} (h : schedule s = .host a u) : u.phase = s.phase := by
  obtain ⟨as, ts, -, rfl, -⟩ := schedule_host h
  rfl

theorem schedule_host_hazard {s u : State} {a : HostAction} (h : schedule s = .host a u) : u.hazard = s.hazard := by
  obtain ⟨as, ts, -, rfl, -⟩ := schedule_host h
  rfl

theorem step_of_host {s u : State} {a : HostAction} (h : schedule s = .host a u) : step s = hostStep a u := by
  rw [step, h]

theorem step_of_block {s u : State} (h : schedule s = .block u) : step s = completionStep u := by
  rw [step, h]

theorem step_of_none {s : State} (h : schedule s = .none) : step s = .next s := by
  rw [step, h]

/-- Settles O4, by the four cases of the schedule. -/
theorem stepIsTheScheduledAgentsMove : Obligations.StepIsTheScheduledAgentsMove :=
  ⟨fun _ _ _ hq hp => step_of_host (schedule_quiescent hq hp),
    fun _ _ _ _ hb ht hp => step_of_host (schedule_hostTurn hb ht hp),
    fun _ hb h => step_of_block (schedule_blockTurn hb h),
    fun _ hq hp => step_of_none (schedule_idle hq hp)⟩

/-! ### What one action of HOST leaves -/

/-- HOST reads, or does what the block ignores: only HOST's own side and the count of draws differ between `s` and `t`,
and a poll may stand again in front of HOST's actions (R60, R84). -/
def OnlyHostSideMoves (s t : State) : Prop :=
  ∃ draws pending seen, t = { s with draws := draws, pending := pending, seen := seen } ∧
    (pending = s.pending ∨ pending = .poll :: s.pending)

theorem OnlyHostSideMoves.refl (s : State) : OnlyHostSideMoves s s := ⟨_, _, _, rfl, .inl rfl⟩

theorem hostReadReg_onlyHostSide (off : Word) (s : State) : OnlyHostSideMoves s (hostReadReg off s) := by
  unfold hostReadReg
  split <;> exact ⟨_, _, _, rfl, .inl rfl⟩

theorem hostReadIn_onlyHostSide (off : Word) (s : State) : OnlyHostSideMoves s (hostReadIn off s) :=
  ⟨_, _, _, rfl, .inl rfl⟩

theorem hostReadOut_onlyHostSide (off : Word) (s : State) : OnlyHostSideMoves s (hostReadOut off s) := by
  unfold hostReadOut
  split <;> exact ⟨_, _, _, rfl, .inl rfl⟩

theorem hostPoll_onlyHostSide (s : State) : OnlyHostSideMoves s (hostPoll s) := by
  unfold hostPoll
  split
  · exact ⟨_, _, _, rfl, .inr rfl⟩
  · exact ⟨_, _, _, rfl, .inl rfl⟩

/-- HOST runs a command, writes IN_LEN, writes IN, resets, or moves its own side only. -/
theorem hostStep_effect {a : HostAction} {s t : State} (h : hostStep a s = .next t) :
    (∃ w, a = .wrReg 0x000#32 w ∧ exec (decode w) s = .next t) ∨
    (∃ w, a = .wrReg 0x008#32 w ∧ t = hostWriteInLen w s) ∨
    (∃ off b, a = .wrIn off b ∧ t = hostWriteIn off b s) ∨
    (a = .reset ∧ t = resetInput s) ∨ OnlyHostSideMoves s t := by
  obtain ⟨off, w, rfl, -, hw⟩ | ⟨off, -, -, rfl⟩ | ⟨off, b, rfl, -, rfl⟩ | ⟨off, -, -, rfl⟩ | ⟨off, -, -, rfl⟩ |
    ⟨_, _, -, -, rfl⟩ | ⟨-, rfl⟩ | ⟨rfl, rfl⟩ := hostStep_cases h
  · obtain ⟨hr, hx⟩ | ⟨hr, rfl⟩ | rfl := writeReg_cases hw
    · exact .inl ⟨w, by rw [regOf_eq_ctrl.1 hr], hx⟩
    · exact .inr (.inl ⟨w, by rw [regOf_eq_inLen.1 hr], rfl⟩)
    · exact .inr (.inr (.inr (.inr (.refl t))))
  · exact .inr (.inr (.inr (.inr (hostReadReg_onlyHostSide off s))))
  · exact .inr (.inr (.inl ⟨off, b, rfl, rfl⟩))
  · exact .inr (.inr (.inr (.inr (hostReadIn_onlyHostSide off s))))
  · exact .inr (.inr (.inr (.inr (hostReadOut_onlyHostSide off s))))
  · exact .inr (.inr (.inr (.inr (.refl t))))
  · exact .inr (.inr (.inr (.inr (hostPoll_onlyHostSide s))))
  · exact .inr (.inr (.inr (.inl ⟨rfl, rfl⟩)))

/-- The result registers, OUT and the parameters. -/
def State.results (s : State) : Word × Byte × Word × BitVec 3 × FreqTable × DepthTable × Memory × Config.Caps :=
  (s.outLen, s.symCount, s.byteCount, s.modulo, s.freq, s.codeLen, s.outBuf, s.caps)

/-- A CTRL write touches STATE, ERR and CMDL only, so no result (R95 to R97). -/
theorem exec_results {i : Instr} {s t : State} (h : exec i s = .next t) : t.results = s.results := by
  obtain rfl | ⟨-, c, rfl⟩ | ⟨-, rfl⟩ := exec_cases h <;> rfl

theorem hostStep_results {a : HostAction} {s t : State} (ha : a ≠ .reset) (h : hostStep a s = .next t) :
    t.results = s.results := by
  obtain ⟨w, -, hx⟩ | ⟨w, -, rfl⟩ | ⟨off, b, -, rfl⟩ | ⟨hr, -⟩ | ⟨_, _, _, rfl, -⟩ := hostStep_effect h
  · exact exec_results hx
  · rfl
  · rfl
  · exact absurd hr ha
  · rfl

/-- Settles O26. -/
theorem hostActionsLeaveTheResults : Obligations.HostActionsLeaveTheResults := by
  intro a s t ha h
  have hres := hostStep_results ha h
  simp only [State.results, Prod.mk.injEq] at hres
  obtain ⟨hlen, hsym, hbc, hmod, hfreq, hcode, hout, hcaps⟩ := hres
  exact ⟨hlen, hsym, hbc, hmod, hfreq, hcode, fun k => by rw [hout], hcaps⟩

/-! ### What the completion step leaves -/

/-- Neither end of a command touches the input, the parameters, HAZARD or HOST's own side (R27, R35, R53). -/
theorem completionStep_frame {s t : State} (h : completionStep s = .next t) :
    t.inBuf = s.inBuf ∧ t.inLen = s.inLen ∧ t.cmdl = s.cmdl ∧ t.caps = s.caps ∧ t.hazard = s.hazard ∧
    t.pending = s.pending ∧ t.turns = s.turns ∧ t.seen = s.seen := by
  obtain ⟨r, -, rfl⟩ | ⟨e, -, rfl⟩ := completionStep_cases h
  · exact ⟨rfl, rfl, rfl, rfl, rfl, rfl, rfl, rfl⟩
  · exact ⟨rfl, rfl, rfl, rfl, rfl, rfl, rfl, rfl⟩

/-- Settles O28. -/
theorem completionLeavesTheInput : Obligations.CompletionLeavesTheInput := by
  intro s t h
  have hframe := completionStep_frame h
  exact ⟨fun k => by rw [hframe.1], hframe⟩

/-! ### HAZARD -/

theorem exec_hazard {i : Instr} {s t : State} (h : exec i s = .next t) : t.hazard = s.hazard := by
  obtain rfl | ⟨-, c, rfl⟩ | ⟨-, rfl⟩ := exec_cases h <;> rfl

/-- A write to IN or IN_LEN marks HAZARD while BUSY (R46, R176). -/
theorem markHazard_hazard_iff (s : State) : s.markHazard.hazard = true ↔ s.hazard = true ∨ s.phase = .busy := by
  simp

theorem wrIn_eq {off : Word} {b : Byte} {s t : State} (h : hostStep (.wrIn off b) s = .next t) :
    t = hostWriteIn off b s := by
  simp only [hostStep] at h
  split at h
  · cases h; rfl
  · cases h

/-- HAZARD after an action of HOST other than reset (R46). -/
theorem hostStep_hazard {a : HostAction} {s t : State} (ha : a ≠ .reset) (h : hostStep a s = .next t) :
    t.hazard = true ↔ s.hazard = true ∨
      (s.phase = .busy ∧ ((∃ off b, a = .wrIn off b) ∨ ∃ w, a = .wrReg 0x008#32 w)) := by
  constructor
  · intro ht
    obtain ⟨w, -, hx⟩ | ⟨w, rfl, rfl⟩ | ⟨off, b, rfl, rfl⟩ | ⟨hr, -⟩ | ⟨_, _, _, rfl, -⟩ := hostStep_effect h
    · exact .inl (exec_hazard hx ▸ ht)
    · exact ((markHazard_hazard_iff s).1 ht).imp_right fun hb => ⟨hb, .inr ⟨w, rfl⟩⟩
    · exact ((markHazard_hazard_iff s).1 ht).imp_right fun hb => ⟨hb, .inl ⟨off, b, rfl⟩⟩
    · exact absurd hr ha
    · exact .inl ht
  · rintro (hs | ⟨hb, ⟨off, b, rfl⟩ | ⟨w, rfl⟩⟩)
    · obtain ⟨w, -, hx⟩ | ⟨w, -, rfl⟩ | ⟨off, b, -, rfl⟩ | ⟨hr, -⟩ | ⟨_, _, _, rfl, -⟩ := hostStep_effect h
      · exact (exec_hazard hx).trans hs
      · exact (markHazard_hazard_iff s).2 (.inl hs)
      · exact (markHazard_hazard_iff s).2 (.inl hs)
      · exact absurd hr ha
      · exact hs
    · rw [wrIn_eq h]
      exact (markHazard_hazard_iff s).2 (.inr hb)
    · cases h
      exact (markHazard_hazard_iff s).2 (.inr hb)

/-- Settles O22, by the agent that moves. -/
theorem hazardIsStickyAndSetByInputWritesWhileBusy : Obligations.HazardIsStickyAndSetByInputWritesWhileBusy := by
  refine ⟨rfl, fun s t hs => ⟨fun u hu => ?reset, fun a u hu ha => ?host, fun hno => ?other⟩⟩
  case reset =>
    rw [step_of_host hu] at hs
    cases hs
    rfl
  case host =>
    rw [step_of_host hu] at hs
    rw [← schedule_host_phase hu, ← schedule_host_hazard hu]
    exact hostStep_hazard ha hs
  case other =>
    obtain ⟨a, u, hu, -⟩ | ⟨u, hu, hc⟩ | ⟨-, rfl⟩ := step_cases hs
    · exact absurd hu (hno a u)
    · obtain ⟨-, rfl⟩ := schedule_block hu
      obtain ⟨-, -, -, -, hhazard, -⟩ := completionStep_frame hc
      exact hhazard
    · rfl

/-! ### STATE -/

theorem latchCommand_quiescent {s : State} (hq : s.quiescent) (c : Command) :
    latchCommand c s = setBusy { s with cmdl := c } := if_neg hq

theorem latchCommand_busy {s : State} (hb : s.phase = .busy) (c : Command) : latchCommand c s = s := if_pos hb

/-- While BUSY a command is lost (R177). -/
theorem exec_busy {s : State} (hb : s.phase = .busy) (i : Instr) : exec i s = .next s := by
  cases i with
  | nop => rfl
  | encode => exact congrArg _ (latchCommand_busy hb _)
  | decode => exact congrArg _ (latchCommand_busy hb _)
  | reserved => exact congrArg _ (if_pos hb)

theorem exec_latch_phase {s t : State} (hq : s.quiescent) {i : Instr} (hi : i = .encode ∨ i = .decode)
    (h : exec i s = .next t) : t.phase = .busy := by
  obtain rfl | rfl := hi
  · cases h; rw [latchCommand_quiescent hq]; rfl
  · cases h; rw [latchCommand_quiescent hq]; rfl

theorem exec_reserved_phase {s t : State} (hq : s.quiescent) (h : exec .reserved s = .next t) : t.phase = .error := by
  cases h
  rw [if_neg hq]
  rfl

/-- STATE after a CTRL write of the word `w` (R24, R95 to R97). -/
theorem ctrlWrite_phase {w : Word} {s t : State} (h : exec (decode w) s = .next t) :
    (s.phase = .busy → t.phase = .busy) ∧
    (s.phase ≠ .busy → w.toNat % 4 = 0 → t.phase = s.phase) ∧
    (s.phase ≠ .busy → w.toNat % 4 = 1 ∨ w.toNat % 4 = 2 → t.phase = .busy) ∧
    (s.phase ≠ .busy → w.toNat % 4 = 3 → t.phase = .error) := by
  refine ⟨fun hb => ?busy, fun _ hw => ?nop, fun hq hw => ?latch, fun hq hw => ?reserved⟩
  case busy =>
    rw [exec_busy hb] at h
    cases h
    exact hb
  case nop =>
    rw [(Laws.CommandWords.nop w).2 hw] at h
    cases h
    rfl
  case latch =>
    exact exec_latch_phase hq (hw.imp (Laws.CommandWords.encode w).2 (Laws.CommandWords.decode w).2) h
  case reserved =>
    rw [(Laws.CommandWords.reserved w).2 hw] at h
    exact exec_reserved_phase hq h

/-- Every action of HOST but reset and a CTRL write leaves STATE (R24). -/
theorem hostStep_phase {a : HostAction} {s t : State} (ha : a ≠ .reset) (hc : ∀ w : Word, a ≠ .wrReg 0x000#32 w)
    (h : hostStep a s = .next t) : t.phase = s.phase := by
  obtain ⟨w, hw, -⟩ | ⟨w, -, rfl⟩ | ⟨off, b, -, rfl⟩ | ⟨hr, -⟩ | ⟨_, _, _, rfl, -⟩ := hostStep_effect h
  · exact absurd hw (hc w)
  · rfl
  · rfl
  · exact absurd hr ha
  · rfl

/-- Settles O27, by the agent that moves. -/
theorem stateChangesOnlyByItsTransitions : Obligations.StateChangesOnlyByItsTransitions := by
  refine ⟨rfl, rfl, rfl, rfl, rfl, fun s t hs =>
    ⟨fun u hu => ?reset, fun w u hu => ?ctrl, fun a u hu ha hc => ?host, fun u hu => ?block, fun hu => ?none⟩⟩
  case reset =>
    rw [step_of_host hu] at hs
    cases hs
    rfl
  case ctrl =>
    rw [step_of_host hu, wrReg_ctrl] at hs
    rw [← schedule_host_phase hu]
    exact ctrlWrite_phase hs
  case host =>
    rw [step_of_host hu] at hs
    exact (hostStep_phase ha hc hs).trans (schedule_host_phase hu)
  case block =>
    rw [step_of_block hu] at hs
    refine ⟨(schedule_block hu).1, ?_⟩
    obtain ⟨r, hr, rfl⟩ | ⟨e, he, rfl⟩ := completionStep_cases hs
    · exact .inl ⟨r, hr, rfl⟩
    · exact .inr ⟨e, he, rfl⟩
  case none =>
    rw [step_of_none hu] at hs
    cases hs
    rfl

/-! ### A command never stops -/

/-- Every byte of an input has a code in the table made from that input (R117). -/
theorem translateBytes_own_isSome {bs : List Byte} (hlen : bs.length < 2 ^ 32) {a : Byte} {as : List Byte}
    (hA : alphabet (freqAnalyze bs) = a :: as) :
    (translateBytes (codeGen (buildTree (freqAnalyze bs) a as)) bs).isSome = true := by
  refine translateBytes_isSome fun b hb => codeGen_isSome.2 ?_
  have hmem : b ∈ a :: as := hA ▸ (mem_alphabet_freqAnalyze hlen).2 hb
  exact (buildTree_symbols _ a as).mem_iff.2 hmem

theorem encodeBytes_ne_fault {bs : List Byte} (hlen : bs.length < 2 ^ 32) (cap : Nat) (f : Fault) :
    encodeBytes cap bs ≠ .fault f := by
  simp only [encodeBytes]
  split
  · nofun
  · split
    · nofun
    · rename_i a as hA
      obtain ⟨bits, hbits⟩ := Option.isSome_iff_exists.1 (translateBytes_own_isSome hlen hA)
      simp only [hbits]
      split
      · nofun
      · split <;> nofun

theorem emitSingle_ne_fault (cap : Nat) (t : Table) (a : Byte) (root : Tree) (f : Fault) :
    emitSingle cap t a root ≠ .fault f := by
  unfold emitSingle
  split
  · nofun
  · split <;> nofun

theorem emitWalk_ne_fault (cap : Nat) (t : Table) (root : Tree) (f : Fault) : emitWalk cap t root ≠ .fault f := by
  unfold emitWalk
  split
  · nofun
  · split
    · nofun
    · split <;> nofun

theorem decodeBytes_ne_fault (cap : Nat) (bs : List Byte) (f : Fault) : decodeBytes cap bs ≠ .fault f := by
  unfold decodeBytes
  split
  · nofun
  · split
    · nofun
    · simp only
      split
      · exact emitSingle_ne_fault _ _ _ _ f
      · exact emitWalk_ne_fault _ _ _ f

theorem runCommand_ne_fault (s : State) (f : Fault) : runCommand s ≠ .fault f := by
  have hlen : (s.inBuf.bytes s.inLen.toNat).length < 2 ^ 32 := (bytes_length _ _).trans_lt s.inLen.isLt
  unfold runCommand
  split
  · unfold runEncode
    split
    · nofun
    · exact encodeBytes_ne_fault hlen _ f
  · unfold runDecode
    split
    · nofun
    · exact decodeBytes_ne_fault _ _ f

/-- Settles O30: a command ends with a result or with an error, never with the fault. -/
theorem completionStepAlwaysEndsInDoneOrError : Obligations.CompletionStepAlwaysEndsInDoneOrError := by
  intro s
  unfold completionStep
  split
  · exact ⟨_, rfl, .inl rfl⟩
  · exact ⟨_, rfl, .inr rfl⟩
  · rename_i f hf
    exact absurd hf (runCommand_ne_fault s f)

/-! ### A BUSY block comes to its end -/

/-- Every access inside the interface has a next state (R158). -/
theorem hostStep_next {a : HostAction} {s : State} (h : a.wellFormed s.caps = true) : ∃ t, hostStep a s = .next t := by
  cases a with
  | wrReg off w =>
    rw [wrReg_eq_writeReg ⟨regRefusal_of_regOffsetOk h, rfl⟩, writeReg]
    split
    · exact exec_next _ _
    · exact ⟨_, rfl⟩
    · exact ⟨_, rfl⟩
  | rdReg off =>
    have href := regRefusal_of_regOffsetOk h
    simp [hostStep, href]
  | wrIn off b => exact ⟨_, wrIn_next (of_decide_eq_true h) b⟩
  | rdIn off => exact ⟨_, rdIn_next (of_decide_eq_true h)⟩
  | rdOut off => exact ⟨_, rdOut_next (of_decide_eq_true h)⟩
  | wrOut off b => exact ⟨_, wrOut_next (of_decide_eq_true h) b⟩
  | poll => exact ⟨_, rfl⟩
  | reset => exact ⟨_, rfl⟩

/-- An action of HOST leaves the parameters, the turns, and HOST's program, but for a poll that goes on (R84). -/
theorem hostStep_program {a : HostAction} {s t : State} (h : hostStep a s = .next t) :
    t.caps = s.caps ∧ t.turns = s.turns ∧ (t.pending = s.pending ∨ t.pending = .poll :: s.pending) := by
  obtain ⟨w, -, hx⟩ | ⟨w, -, rfl⟩ | ⟨off, b, -, rfl⟩ | ⟨-, rfl⟩ | ⟨_, _, _, rfl, hp⟩ := hostStep_effect h
  · obtain rfl | ⟨-, c, rfl⟩ | ⟨-, rfl⟩ := exec_cases hx <;> exact ⟨rfl, rfl, .inl rfl⟩
  · exact ⟨rfl, rfl, .inl rfl⟩
  · exact ⟨rfl, rfl, .inl rfl⟩
  · exact ⟨rfl, rfl, .inl rfl⟩
  · exact ⟨rfl, rfl, hp⟩

/-- HOST's program stays inside the interface (R178). -/
theorem hostStep_hostInInterface {a : HostAction} {s t : State} (hs : s.hostInInterface)
    (h : hostStep a s = .next t) : t.hostInInterface := by
  obtain ⟨hcaps, -, hp⟩ := hostStep_program h
  intro b hb
  rw [hcaps]
  obtain hp | hp := hp <;> rw [hp] at hb
  · exact hs b hb
  · obtain rfl | hb := List.mem_cons.1 hb
    · rfl
    · exact hs b hb

theorem core_run_succ {s t : State} (h : step s = .next t) (k : Nat) :
    Sys2Proof.core.run (k + 1) s = Sys2Proof.core.run k t := by
  have hstep : Sys2Proof.core.step s = .next t := h
  simp only [Host.Core.run, hstep]

/-- Where BLOCK has the turn, one step ends the command. -/
theorem step_leaves_busy_of_blockTurn {s : State} (hb : s.phase = .busy)
    (h : s.turns.head? ≠ some .host ∨ s.pending = []) : ∃ t, step s = .next t ∧ t.phase ≠ .busy := by
  rw [step_of_block (schedule_blockTurn hb h)]
  obtain ⟨t, ht, hp⟩ := completionStepAlwaysEndsInDoneOrError { s with turns := s.turns.tail }
  refine ⟨t, ht, ?_⟩
  obtain hp | hp := hp <;> simp [hp]

/-- A step of HOST uses up one turn, and BLOCK moves when none is left. -/
theorem run_leaves_busy {ts : List Agent} {s : State} (hts : s.turns = ts) (hb : s.phase = .busy)
    (hin : s.hostInInterface) :
    ∃ (k : Nat) (t : State), k ≤ ts.length + 1 ∧ Sys2Proof.core.run k s = Host.Outcome.next t ∧ t.phase ≠ .busy := by
  induction ts generalizing s with
  | nil =>
    obtain ⟨t, ht, hq⟩ := step_leaves_busy_of_blockTurn hb (.inl (by simp [hts]))
    exact ⟨1, t, le_rfl, core_run_succ ht 0, hq⟩
  | cons g ts ih =>
    by_cases hblock : s.turns.head? ≠ some .host ∨ s.pending = []
    · obtain ⟨t, ht, hq⟩ := step_leaves_busy_of_blockTurn hb hblock
      exact ⟨1, t, Nat.succ_le_succ (Nat.zero_le _), core_run_succ ht 0, hq⟩
    · push Not at hblock
      obtain ⟨hhead, hpend⟩ := hblock
      obtain ⟨a, as, hp⟩ := List.exists_cons_of_ne_nil hpend
      have hturns : s.turns = .host :: ts := by
        rw [hts] at hhead ⊢
        rw [Option.some.inj hhead]
      have hwf : a.wellFormed s.caps = true := hin a (hp ▸ List.mem_cons_self)
      have hrest : ∀ b ∈ as, b.wellFormed s.caps = true := fun b hmem => hin b (hp ▸ List.mem_cons_of_mem a hmem)
      obtain ⟨t, ht⟩ := hostStep_next (s := { s with pending := as, turns := ts }) hwf
      have hstep : step s = .next t := (step_of_host (schedule_hostTurn hb hturns hp)).trans ht
      by_cases hq : t.phase = .busy
      · obtain ⟨-, ht_turns, -⟩ := hostStep_program ht
        obtain ⟨k, v, hk, hrun, hv⟩ := ih ht_turns hq (hostStep_hostInInterface hrest ht)
        exact ⟨k + 1, v, Nat.succ_le_succ hk, (core_run_succ hstep k).trans hrun, hv⟩
      · exact ⟨1, t, Nat.succ_le_succ (Nat.zero_le _), core_run_succ hstep 0, hq⟩

/-- Settles O31, by induction on the turns. -/
theorem busyBlockLeavesBusyWithinItsTurns : Obligations.BusyBlockLeavesBusyWithinItsTurns :=
  fun _ => run_leaves_busy rfl

end Sys2Proof.Machine
end

section
/-! PROOF. HOST's accesses to memory: reads keep the block, writes outside CTRL, IN_LEN and IN are ignored, accesses
outside the interface are refused, and the input of a command in flight stands (20_memory.md sections 4 and 6). -/

namespace Sys2Proof.Machine

/-! ### The input while BUSY -/

/-- IN, IN_LEN and CMDL: what the completion step reads beside the parameters (R66). -/
def State.commandInput (s : State) : Memory × Word × Command := (s.inBuf, s.inLen, s.cmdl)

theorem schedule_host_commandInput {s u : State} {a : HostAction} (h : schedule s = .host a u) :
    u.commandInput = s.commandInput := by
  obtain ⟨as, ts, -, rfl, -⟩ := schedule_host h
  rfl

theorem schedule_block_commandInput {s u : State} (h : schedule s = .block u) : u.commandInput = s.commandInput := by
  obtain ⟨-, rfl⟩ := schedule_block h
  rfl

theorem completionStep_commandInput {s t : State} (h : completionStep s = .next t) :
    t.commandInput = s.commandInput := by
  obtain ⟨hbuf, hlen, hcmd, -⟩ := completionStep_frame h
  rw [State.commandInput, hbuf, hlen, hcmd, State.commandInput]

/-- While BUSY a CTRL write is lost, and a write to IN or IN_LEN leaves HAZARD set, so only reset moves the input
without a trace (R171, R176, R177). -/
theorem hostStep_commandInput {a : HostAction} {s t : State} (hb : s.phase = .busy) (h : hostStep a s = .next t)
    (clear : t.hazard = false) : t.phase = .idle ∨ t.commandInput = s.commandInput := by
  have marks : s.markHazard.hazard ≠ false := by simp [hb]
  obtain ⟨w, -, hx⟩ | ⟨w, -, rfl⟩ | ⟨off, b, -, rfl⟩ | ⟨-, rfl⟩ | ⟨_, _, _, rfl, -⟩ := hostStep_effect h
  · rw [exec_busy hb] at hx
    cases hx
    exact .inr rfl
  · exact absurd clear marks
  · exact absurd clear marks
  · exact .inl rfl
  · exact .inr rfl

/-- Settles O29, by the agent that moves. -/
theorem inputStandsAsAtTheCtrlWrite : Obligations.InputStandsAsAtTheCtrlWrite := by
  intro s t hb hs clear
  have hinput : t.phase = .idle ∨ t.commandInput = s.commandInput := by
    obtain ⟨a, u, hu, ha⟩ | ⟨u, hu, hc⟩ | ⟨-, rfl⟩ := step_cases hs
    · rw [← schedule_host_commandInput hu]
      exact hostStep_commandInput ((schedule_host_phase hu).trans hb) ha clear
    · exact .inr ((completionStep_commandInput hc).trans (schedule_block_commandInput hu))
    · exact .inr rfl
  simpa only [State.commandInput, Prod.mk.injEq] using hinput

/-! ### Reads, and writes that are ignored -/

/-- The block is the same in `s` and `t`: only what HOST has seen and the count of draws may differ (R60). -/
def SameBlock (s t : State) : Prop := { t with seen := s.seen, draws := s.draws } = s

theorem hostReadReg_sameBlock (off : Word) (s : State) : SameBlock s (hostReadReg off s) := by
  unfold hostReadReg
  split <;> rfl

theorem hostReadIn_sameBlock (off : Word) (s : State) : SameBlock s (hostReadIn off s) := rfl

theorem hostReadOut_sameBlock (off : Word) (s : State) : SameBlock s (hostReadOut off s) := by
  unfold hostReadOut
  split <;> rfl

/-- A read that has a next state is one of the three reads inside the interface. -/
theorem read_sameBlock {s t : State} {off : Word}
    (h : hostStep (.rdReg off) s = .next t ∨ hostStep (.rdIn off) s = .next t ∨ hostStep (.rdOut off) s = .next t) :
    SameBlock s t := by
  obtain h | h | h := h <;> simp only [hostStep] at h <;> split at h <;> cases h
  · exact hostReadReg_sameBlock off s
  · exact hostReadIn_sameBlock off s
  · exact hostReadOut_sameBlock off s

/-- Settles O19: the register at an offset other than those of CTRL and IN_LEN is neither of the two. -/
theorem readsChangeNoStateAndOtherWritesAreIgnored : Obligations.ReadsChangeNoStateAndOtherWritesAreIgnored := by
  refine ⟨fun s t off h => read_sameBlock h, fun s off w aligned inSpace hctrl hlen => ?_,
    fun s off b h => wrOut_next h b⟩
  exact wrReg_ignored ⟨regRefusal_eq_none aligned inSpace, rfl⟩ (mt regOf_eq_ctrl.1 hctrl) (mt regOf_eq_inLen.1 hlen) w s

/-! ### Accesses outside the interface -/

theorem regRefusal_of_misaligned {off : Word} (h : off.toNat % 4 ≠ 0) : regRefusal off = some .regMisaligned := if_pos h

theorem regRefusal_of_outOfSpace {off : Word} (aligned : off.toNat % 4 = 0) (h : off.toNat ≥ 4096) :
    regRefusal off = some .regOutOfSpace := by
  rw [regRefusal, if_neg (not_not_intro aligned), if_pos h]

/-- A register access answers the refusal of its offset, whether it writes or reads (R51, R178). -/
theorem hostStep_reg_refused {off : Word} {r : Refusal} (h : regRefusal off = some r) (w : Word) (s : State) :
    hostStep (.wrReg off w) s = .refused r ∧ hostStep (.rdReg off) s = .refused r := by
  simp [hostStep, h]

theorem hostStep_in_refused {s : State} {off : Word} (h : off.toNat ≥ s.caps.inCap) (b : Byte) :
    hostStep (.wrIn off b) s = .refused .inOutOfRange ∧ hostStep (.rdIn off) s = .refused .inOutOfRange :=
  ⟨if_neg (Nat.not_lt.2 h), if_neg (Nat.not_lt.2 h)⟩

theorem hostStep_out_refused {s : State} {off : Word} (h : off.toNat ≥ s.caps.outCap) (b : Byte) :
    hostStep (.wrOut off b) s = .refused .outOutOfRange ∧ hostStep (.rdOut off) s = .refused .outOutOfRange :=
  ⟨if_neg (Nat.not_lt.2 h), if_neg (Nat.not_lt.2 h)⟩

/-- Settles O23, by the refusal of each kind of access. -/
theorem accessesOutsideTheInterfaceAreRefused : Obligations.AccessesOutsideTheInterfaceAreRefused :=
  ⟨fun s _ w h => hostStep_reg_refused (regRefusal_of_misaligned h) w s,
    fun s _ w aligned h => hostStep_reg_refused (regRefusal_of_outOfSpace aligned h) w s,
    fun _ _ b h => hostStep_in_refused h b, fun _ _ b h => hostStep_out_refused h b⟩

end Sys2Proof.Machine
end

section
/-! PROOF. The encodings of 30_encoding.md: the command word, the values of STATUS, where the bits of the payload stand,
and the fields of a container, written and read. -/

namespace Sys2Proof.Machine

/-! ### The command word -/

/-- Every command stands for the words with its value in CMD, and for no other (R70, R71). -/
theorem commandWords (i : Instr) : Laws.CommandWords.Statement i := by
  cases i with
  | nop => exact Laws.CommandWords.nop
  | encode => exact Laws.CommandWords.encode
  | decode => exact Laws.CommandWords.decode
  | reserved => exact Laws.CommandWords.reserved

/-- Words that agree in CMD are the same command: bits [31:2] are ignored (R72). -/
theorem decode_congr {w w' : Word} (h : w'.toNat % 4 = w.toNat % 4) : decode w' = decode w :=
  (commandWords (decode w) w').2 (h.trans ((commandWords (decode w) w).1 rfl))

/-- A command's own word has the command's value in CMD and nothing beside it. -/
theorem encode_toNat_lt (i : Instr) : (encode i).toNat < 4 := by cases i <;> decide

theorem decode_encode (i : Instr) : decode (encode i) = i :=
  (commandWords i (encode i)).2 (Nat.mod_eq_of_lt (encode_toNat_lt i))

/-- Settles O1, by the words that stand for each command. -/
theorem cmdFieldAloneSelectsTheCommand : Obligations.CmdFieldAloneSelectsTheCommand := fun w =>
  ⟨(commandWords .nop w).2, (commandWords .encode w).2, (commandWords .decode w).2, (commandWords .reserved w).2,
    fun _ => decode_congr⟩

/-- Settles O2: each of the eight words has the value of its command in CMD. -/
theorem commandWordsDecodeBack : Obligations.CommandWordsDecodeBack :=
  ⟨decode_encode, (commandWords .nop _).2 rfl, (commandWords .encode _).2 rfl, (commandWords .decode _).2 rfl,
    (commandWords .reserved _).2 rfl, (commandWords .encode _).2 rfl, (commandWords .decode _).2 rfl,
    (commandWords .nop _).2 rfl, (commandWords .reserved _).2 rfl⟩

/-! ### STATUS -/

/-- Settles O25, by whether the poll reads BUSY. -/
theorem pollReadsStatusUntilNotBusy : Obligations.PollReadsStatusUntilNotBusy := by
  refine fun s => ⟨fun hb => ?busy, fun hq => ?quiescent⟩
  case busy => rw [hostStep, hostPoll, if_pos hb]; rfl
  case quiescent => rw [hostStep, hostPoll, if_neg hq]; rfl

/-- Outside ERROR there is no error code (R25). -/
theorem err_eq_none {s : State} (he : s.errOnlyInError) (hp : s.phase ≠ .error) : s.err = none := by
  simpa using mt he.1 hp

/-- The STATUS word as the value of STATE and ERR alone (R26). -/
theorem statusWord_of {s : State} {p : Phase} {e : Option ErrorCode} (hp : s.phase = p) (he : s.err = e) :
    statusWord s = BitVec.ofNat 32 (errBits e) <<< 4 ||| BitVec.ofNat 32 (phaseBits p) := by
  rw [statusWord, hp, he]

/-- Settles O12: no error code outside ERROR, and one of the six in it. -/
theorem statusTakesOnlyItsNineValues : Obligations.StatusTakesOnlyItsNineValues := by
  intro s he
  have noCode : ∀ {p : Phase}, s.phase = p → p ≠ .error → s.err = none := fun hp hne => err_eq_none he (hp ▸ hne)
  refine ⟨fun hp => statusWord_of hp (noCode hp nofun), statusWord_busy he,
    fun hp => statusWord_of hp (noCode hp nofun), fun hp => ?error⟩
  case error =>
    obtain ⟨e, hcode⟩ := Option.isSome_iff_exists.1 (he.2 hp)
    have hword := statusWord_of hp hcode
    cases e with
    | emptyAlphabet => exact .inl ⟨hcode, hword⟩
    | malformedContainer => exact .inr (.inl ⟨hcode, hword⟩)
    | invalidBitPath => exact .inr (.inr (.inl ⟨hcode, hword⟩))
    | unrepresentableAlphabetSize => exact .inr (.inr (.inr (.inl ⟨hcode, hword⟩)))
    | capacityExceeded => exact .inr (.inr (.inr (.inr (.inl ⟨hcode, hword⟩))))
    | illegalCommand => exact .inr (.inr (.inr (.inr (.inr ⟨hcode, hword⟩))))

/-! ### The bits of the payload -/

/-- Bits placed from below bit `k` downwards stay below it. -/
theorem bitsValue_lt {bs : Bits} {k : Nat} (h : bs.length ≤ k) : bitsValue (k - 1) bs < 2 ^ k := by
  induction bs generalizing k with
  | nil => exact Nat.two_pow_pos k
  | cons b bs ih =>
    obtain ⟨k, rfl⟩ := Nat.exists_eq_add_of_le' (Nat.one_le_of_lt h)
    have hrest : bitsValue (k - 1) bs < 2 ^ k := ih (Nat.le_of_succ_le_succ h)
    have hbit : (if b then 2 ^ k else 0) ≤ 2 ^ k := by
      split
      · exact le_rfl
      · exact Nat.zero_le _
    rw [Nat.add_sub_cancel, bitsValue, Nat.pow_succ]
    omega

/-- The bit `i` of at most `k + 1` bits stands at bit `k - i` of their value, and the bits below are 0 (R80). -/
theorem bitsValue_testBit {bs : Bits} {k i : Nat} (h : bs.length ≤ k + 1) (hi : i ≤ k) :
    (bitsValue k bs).testBit (k - i) = bs.getD i false := by
  induction bs generalizing k i with
  | nil => simp [bitsValue]
  | cons b bs ih =>
    have hlen : bs.length ≤ k := Nat.le_of_succ_le_succ h
    rw [bitsValue]
    cases i with
    | zero =>
      have hrest : (bitsValue (k - 1) bs).testBit k = false := Nat.testBit_lt_two_pow (bitsValue_lt hlen)
      cases b <;> simp [hrest, Nat.testBit_two_pow_add_eq]
    | succ i =>
      have hrest : (bitsValue (k - 1) bs).testBit (k - (i + 1)) = bs.getD i false := by
        rw [Nat.add_comm i, ← Nat.sub_sub]
        exact ih (by omega) (by omega)
      have hbelow : k - (i + 1) < k := by omega
      cases b <;> simp [hrest, Nat.testBit_two_pow_add_gt hbelow]

/-- The bits of a payload byte, first bit highest, and the padding bits 0 (R80, R118). -/
theorem packByte_getLsbD {bs : Bits} {i : Nat} (h : bs.length ≤ 8) (hi : i < 8) :
    (packByte bs).getLsbD (7 - i) = bs.getD i false := by
  have hbit : 7 - i < 8 := by omega
  rw [packByte, BitVec.getLsbD_ofNat, bitsValue_testBit h (Nat.le_of_lt_succ hi), decide_eq_true hbit, Bool.true_and]

/-- The payload is the byte of the first 8 bits, or of the fewer there are, before the payload of the rest (R118). -/
theorem packBits_eq {bits : Bits} (h : bits ≠ []) :
    packBits bits = packByte (bits.take 8) :: packBits (bits.drop 8) := by
  match bits, h with
  | [], h => exact absurd rfl h
  | _ :: _ :: _ :: _ :: _ :: _ :: _ :: _ :: _, _ => rfl
  | [_], _ | [_, _], _ | [_, _, _], _ | [_, _, _, _], _ | [_, _, _, _, _], _ | [_, _, _, _, _, _], _
  | [_, _, _, _, _, _, _], _ => rfl

/-- Bit string position `p` stands in byte `p / 8` at bit `7 - p % 8`; beyond the bit string the bits are 0 (R80). -/
theorem packBits_getLsbD (bits : Bits) (p : Nat) :
    ((packBits bits).getD (p / 8) 0#8).getLsbD (7 - p % 8) = bits.getD p false := by
  induction p using Nat.strong_induction_on generalizing bits with
  | _ p ih =>
    rcases eq_or_ne bits [] with rfl | hne
    · simp [packBits]
    · rw [packBits_eq hne]
      rcases Nat.lt_or_ge p 8 with hp | hp
      · have hbyte := packByte_getLsbD (List.length_take_le 8 bits) hp
        rw [Nat.div_eq_of_lt hp, Nat.mod_eq_of_lt hp, List.getD_cons_zero, hbyte]
        simp [List.getD, hp]
      · obtain ⟨q, rfl⟩ := Nat.exists_eq_add_of_le' hp
        rw [Nat.add_div_right q (by decide), Nat.add_mod_right, List.getD_cons_succ, ih q (by omega)]
        simp [List.getD, Nat.add_comm]

theorem unpackByte_getElem {v : Byte} {i : Nat} (h : i < (unpackByte v).length) :
    (unpackByte v)[i] = v.getLsbD (7 - i) := by
  match i, h with
  | 0, _ | 1, _ | 2, _ | 3, _ | 4, _ | 5, _ | 6, _ | 7, _ => rfl

/-- The reader takes the first bits of a byte from its high end and ignores the others (R80, R134). -/
theorem take_unpackByte_congr {v v' : Byte} {md : Nat} (h : ∀ i, i < md → v.getLsbD (7 - i) = v'.getLsbD (7 - i)) :
    (unpackByte v).take md = (unpackByte v').take md := by
  apply List.ext_getElem (by simp)
  intro i hi _
  have him : i < md := (List.length_take_le md _).trans_lt' hi
  simp [unpackByte_getElem, h i him]

/-- Full bytes and a partial byte: the bits of the full bytes, then the first `md` bits of the partial byte (R134). -/
theorem unpackBits_append_partial (full : List Byte) (v : Byte) (md : Nat) :
    unpackBits (full ++ [v]) full.length md = full.flatMap unpackByte ++ (unpackByte v).take md := by
  have htail : (if md > 0 then (unpackByte v).take md else []) = (unpackByte v).take md := by
    split
    · rfl
    · rename_i hmd
      rw [Nat.eq_zero_of_not_pos hmd, List.take_zero]
  simpa [unpackBits] using htail

/-- Settles O48, by the bit of the payload at each position. -/
theorem payloadBitsStandWhereR80Says : Obligations.PayloadBitsStandWhereR80Says := by
  refine ⟨fun bits => ⟨packBits_length bits, fun p h => ?data, fun p h _ => ?padding⟩,
    fun full v v' md _ h => ?reader⟩
  case data => rw [packBits_getLsbD, List.getD_eq_getElem _ _ h]
  case padding => rw [packBits_getLsbD, List.getD_eq_default _ _ h]
  case reader => rw [unpackBits_append_partial, unpackBits_append_partial, take_unpackByte_congr h]

/-! ### The container -/

theorem pairSymbol_cons (n : Byte) (body : List Byte) (i : Nat) :
    pairSymbol (n :: body) i = byteAt body (5 * i) := by
  rw [pairSymbol, Nat.add_comm, byteAt_cons]

theorem pairFreq_cons (n : Byte) (body : List Byte) (i : Nat) :
    pairFreq (n :: body) i = wordAt body (1 + 5 * i) := by
  rw [pairFreq, Nat.add_comm 2, Nat.add_comm 1]
  exact wordAt_cons n body (5 * i + 1)

/-- The bytes after the pairs are byte_count, modulo and the payload (R78, R79). -/
theorem fields_of_drop_pairs {C P : List Byte} {c0 c1 c2 c3 md : Byte}
    (h : C.drop (1 + 5 * countField C) = c0 :: c1 :: c2 :: c3 :: md :: P) :
    byteCountField C = rdU32le c0 c1 c2 c3 ∧ moduloField C = md ∧ C.drop (6 + 5 * countField C) = P := by
  have hword := wordAt_drop C (1 + 5 * countField C) 0
  have hbyte := byteAt_drop C (1 + 5 * countField C) 4
  have htail := List.drop_drop (i := 5) (j := 1 + 5 * countField C) (l := C)
  rw [h] at hword hbyte htail
  rw [Nat.add_right_comm] at hbyte htail
  exact ⟨hword.symm, hbyte.symm, htail.symm⟩

theorem drop_writePairs (F : FreqTable) (A rest : List Byte) (i : Nat) (h : i ≤ A.length) :
    (writePairs F A ++ rest).drop (5 * i) = writePairs F (A.drop i) ++ rest := by
  induction A generalizing i with
  | nil =>
    obtain rfl : i = 0 := by simpa using h
    rfl
  | cons a A ih =>
    cases i with
    | zero => rfl
    | succ i => exact ih i (Nat.le_of_succ_le_succ h)

/-- From the offset of pair `i` on, a container holds the pairs from `i` on, byte_count, modulo and the payload (R78). -/
theorem drop_writeContainer {A : List Byte} (F : FreqTable) (bc md : Nat) (P : List Byte) {i : Nat}
    (h : i ≤ A.length) :
    (writeContainer A F bc md P).drop (1 + 5 * i) =
      writePairs F (A.drop i) ++ (u32le (BitVec.ofNat 32 bc) ++ BitVec.ofNat 8 md :: P) := by
  rw [writeContainer_eq, Nat.add_comm, List.drop_succ_cons, drop_writePairs F A _ i h]
  rfl

theorem countField_writeContainer {A : List Byte} (F : FreqTable) (bc md : Nat) (P : List Byte) (h : A.length ≤ 255) :
    countField (writeContainer A F bc md P) = A.length :=
  (BitVec.toNat_ofNat A.length 8).trans (Nat.mod_eq_of_lt (Nat.lt_succ_of_le h))

/-- Pair `i` holds the symbol `i` of the alphabet and its frequency (R78, R119). -/
theorem pair_writeContainer {A : List Byte} (F : FreqTable) (bc md : Nat) (P : List Byte) {i : Nat} (h : i < A.length) :
    pairSymbol (writeContainer A F bc md P) i = A[i] ∧
    pairFreq (writeContainer A F bc md P) i = FreqTable.at F A[i] := by
  have hdrop := drop_writeContainer F bc md P h.le
  rw [List.drop_eq_getElem_cons h, writePairs_cons] at hdrop
  constructor
  · rw [pairSymbol, ← Nat.add_zero (1 + 5 * i), ← byteAt_drop, hdrop]
    rfl
  · rw [pairFreq, show 2 + 5 * i = 1 + 5 * i + 1 by omega, ← wordAt_drop, hdrop]
    exact rdU32le_u32le _

/-- After the pairs stand byte_count, modulo and the payload (R78). -/
theorem fields_writeContainer {A : List Byte} (F : FreqTable) (bc md : Nat) (P : List Byte) (h : A.length ≤ 255) :
    byteCountField (writeContainer A F bc md P) = BitVec.ofNat 32 bc ∧
    moduloField (writeContainer A F bc md P) = BitVec.ofNat 8 md ∧
    (writeContainer A F bc md P).drop (6 + 5 * A.length) = P := by
  have hdrop := drop_writeContainer F bc md P (le_refl A.length)
  have hcount := countField_writeContainer F bc md P h
  rw [List.drop_length, ← hcount] at hdrop
  obtain ⟨hword, hbyte, htail⟩ := fields_of_drop_pairs hdrop
  exact ⟨hword.trans (rdU32le_u32le _), hbyte, hcount ▸ htail⟩

/-- Settles O49, by the bytes from each field's offset on. -/
theorem writtenContainerHasTheLayout : Obligations.WrittenContainerHasTheLayout := by
  intro A F bc md P _ hA hbc hmd hP
  obtain ⟨hbyteCount, hmodulo, hpayload⟩ := fields_writeContainer F bc md P hA
  refine ⟨?length, countField_writeContainer F bc md P hA, fun i h => pair_writeContainer F bc md P h, ?byteCount,
    ?modulo, hpayload⟩
  case length => rw [writeContainer_length, hP, payloadLength, Nat.add_assoc _ bc]
  case byteCount => rw [hbyteCount, BitVec.toNat_ofNat, Nat.mod_eq_of_lt hbc]
  case modulo => rw [hmodulo, BitVec.toNat_ofNat, Nat.mod_eq_of_lt (by omega)]

/-! ### Reading a container -/

/-- A symbol that had no frequency and gets one joins the alphabet. -/
theorem alphabet_put_perm {F : FreqTable} {s : Byte} {f : Word} (hs : FreqTable.at F s = 0#32) (hf : f ≠ 0#32) :
    (alphabet (FreqTable.put F s f)).Perm (s :: alphabet F) := by
  have hnew : s ∉ alphabet F := fun h => mem_alphabet.1 h hs
  refine (List.perm_ext_iff_of_nodup (alphabet_nodup _) (List.nodup_cons.2 ⟨hnew, alphabet_nodup F⟩)).2 fun x => ?_
  rw [mem_alphabet, put_at, List.mem_cons, mem_alphabet]
  by_cases hx : s = x
  · simp [hx, hf]
  · simp [hx, Ne.symm hx]

/-- Reading `n` pairs adds `n` symbols to the alphabet: no symbol is repeated, and no frequency is 0 (R131, R132). -/
theorem readPairs_alphabet_length {n : Nat} {body rest' : List Byte} {F F' : FreqTable}
    (h : readPairs n body F = some (F', rest')) : (alphabet F').length = (alphabet F).length + n := by
  fun_induction readPairs n body F with
  | case1 => cases h; rfl
  | case2 => cases h
  | case3 n s b0 b1 b2 b3 rest F f hc ih =>
    obtain ⟨hf, hs⟩ := not_or.1 hc
    rw [ih h, (alphabet_put_perm (not_not.1 hs) hf).length_eq, List.length_cons, Nat.succ_add_eq_add_succ]
  | case4 => cases h

theorem alphabet_replicate_zero : alphabet (Vector.replicate 256 0#32) = [] :=
  List.eq_nil_iff_forall_not_mem.2 fun s hs => mem_alphabet.1 hs (replicate_at _ s)

/-- Settles O51: ReadTable's pairs, and the bytes after them. -/
theorem readTableReadsTheFields : Obligations.ReadTableReadsTheFields := by
  intro C t h
  match C, h with
  | n :: body, h =>
    obtain ⟨F, c0, c1, c2, c3, md, payload, hp, rfl, -, hmd, -⟩ := readTable_some h
    obtain ⟨hrest, hpairs, habsent, -⟩ := readPairs_some hp
    have hdrop : (n :: body).drop (1 + 5 * n.toNat) = c0 :: c1 :: c2 :: c3 :: md :: payload := by
      rw [hrest, Nat.add_comm, List.drop_succ_cons]
    obtain ⟨hbyteCount, hmodulo, hpayload⟩ := fields_of_drop_pairs (C := n :: body) hdrop
    refine ⟨rfl, hbyteCount.symm, hmodulo.symm, hmd, hpayload.symm, fun i hi => ?pair, fun x hx => ?absent, ?count⟩
    case pair => rw [pairSymbol_cons, pairFreq_cons, hpairs i hi]
    case absent => rw [habsent x fun i hi => pairSymbol_cons n body i ▸ hx i hi, replicate_at]
    case count => rw [readPairs_alphabet_length hp, alphabet_replicate_zero]; exact Nat.zero_add _

end Sys2Proof.Machine
end

section
/-! PROOF. The four commands as a CTRL write runs them (40_command.md sections 1 and 2), and what a command in flight
depends on (40_command.md section 3). -/

namespace Sys2Proof.Machine

/-! ### The CTRL write as the next step -/

/-- A placed command word is HOST's very next action, and it is taken in the state it was placed in (log entry 8). -/
theorem schedule_placeCommand (w : Word) (s : State) :
    schedule (placeCommand w s) = .host (.wrReg 0x000#32 w) s := by
  by_cases hb : s.phase = .busy
  · exact schedule_hostTurn (s := placeCommand w s) hb (if_pos hb) rfl
  · rw [schedule_quiescent (s := placeCommand w s) hb rfl]
    simp [placeCommand, hb]

theorem step_placeCommand (w : Word) (s : State) : step (placeCommand w s) = exec (decode w) s :=
  step_of_host (schedule_placeCommand w s)

/-- Settles O3: the write to CTRL is the move that is scheduled, placed or standing in HOST's program. -/
theorem ctrlWriteRunsTheDecodedCommand : Obligations.CtrlWriteRunsTheDecodedCommand :=
  ⟨fun s w => step_placeCommand w s, fun s _ _ => step_placeCommand _ s,
    fun _ _ _ hq hp => step_of_host (schedule_quiescent hq hp),
    fun _ _ _ _ hb ht hp => step_of_host (schedule_hostTurn hb ht hp)⟩

/-! ### Each command outside BUSY -/

theorem exec_nop (s : State) : exec .nop s = .next s := rfl

theorem exec_encode_quiescent {s : State} (hq : s.quiescent) :
    exec .encode s = .next { s with cmdl := .encode, err := none, phase := .busy } :=
  congrArg _ (latchCommand_quiescent hq .encode)

theorem exec_decode_quiescent {s : State} (hq : s.quiescent) :
    exec .decode s = .next { s with cmdl := .decode, err := none, phase := .busy } :=
  congrArg _ (latchCommand_quiescent hq .decode)

theorem exec_reserved_quiescent {s : State} (hq : s.quiescent) :
    exec .reserved s = .next { s with phase := .error, err := some .illegalCommand } :=
  congrArg _ (if_neg hq)

/-- Settles O6. -/
theorem nopChangesNothing : Obligations.NopChangesNothing := exec_nop

/-- Settles O7. -/
theorem encodeAndDecodeAreLatched : Obligations.EncodeAndDecodeAreLatched := fun _ hq =>
  ⟨exec_encode_quiescent hq, exec_decode_quiescent hq⟩

/-- Settles O8: BLOCK moves in BUSY only, so not in the ERROR that the reserved command leaves. -/
theorem reservedCommandRaisesIllegalCommand : Obligations.ReservedCommandRaisesIllegalCommand := fun _ =>
  ⟨fun hq => ⟨exec_reserved_quiescent hq, statusWord_of (p := .error) (e := some .illegalCommand) rfl rfl,
      fun _ hu => nomatch (schedule_block hu).1⟩,
    fun hb => exec_busy hb .reserved⟩

/-- Settles O5, by STATE and then by the command of the word. -/
theorem ctrlWriteDispatchesOnStateAndCmd : Obligations.CtrlWriteDispatchesOnStateAndCmd := by
  intro s w
  rw [wrReg_ctrl]
  by_cases hb : s.phase = .busy
  · rw [if_pos hb, exec_busy hb]
  · obtain ⟨hw, hd⟩ | ⟨hw, hd⟩ | ⟨hw, hd⟩ | ⟨hw, hd⟩ := Laws.CommandWords.decode_cases w
    · rw [hd, exec_nop]; simp [hw]
    · rw [hd, exec_encode_quiescent hb]; simp [hb, hw]
    · rw [hd, exec_decode_quiescent hb]; simp [hb, hw]
    · rw [hd, exec_reserved_quiescent hb]; simp [hb, hw]

/-! ### The frame of the commands -/

/-- A command changes STATE, ERR and CMDL at most (R95 to R97). -/
theorem exec_frame {i : Instr} {s t : State} (h : exec i s = .next t) :
    ∃ p e c, t = { s with phase := p, err := e, cmdl := c } := by
  obtain rfl | ⟨-, c, rfl⟩ | ⟨-, rfl⟩ := exec_cases h <;> exact ⟨_, _, _, rfl⟩

theorem exec_nop_eq {s t : State} (h : exec .nop s = .next t) : t = s := by
  cases h
  rfl

/-- The reserved command latches nothing (R97). -/
theorem exec_reserved_cmdl {s t : State} (h : exec .reserved s = .next t) : t.cmdl = s.cmdl := by
  cases h
  split <;> rfl

/-- Settles O10, by the frame of all four commands, and for STATE, ERR and CMDL by the command. -/
theorem commandsLeaveAllButStatusAndLatch : Obligations.CommandsLeaveAllButStatusAndLatch := by
  intro i s t h
  have nop_keeps : i = .nop → t = s := fun hi => exec_nop_eq (hi ▸ h)
  have reserved_keeps : i = .reserved → t.cmdl = s.cmdl := fun hi => exec_reserved_cmdl (hi ▸ h)
  have latch : i = .nop ∨ i = .reserved → t.cmdl = s.cmdl :=
    fun hi => hi.elim (fun hn => congrArg State.cmdl (nop_keeps hn)) reserved_keeps
  have status : i = .nop → t.phase = s.phase ∧ t.err = s.err := fun hi =>
    ⟨congrArg State.phase (nop_keeps hi), congrArg State.err (nop_keeps hi)⟩
  obtain ⟨p, e, c, rfl⟩ := exec_frame h
  exact ⟨rfl, rfl, rfl, rfl, rfl, rfl, rfl, fun _ => rfl, fun _ => rfl, rfl, rfl, rfl, rfl, rfl, rfl, status, latch⟩

/-! ### What a command in flight depends on -/

/-- Buffers that read the same below `n` hold the same first `n` bytes. -/
theorem bytes_congr {m m' : Memory} {n : Nat} (h : ∀ k, k < n → m'.read k = m.read k) : m'.bytes n = m.bytes n :=
  List.map_congr_left fun k hk => h k (List.mem_range.1 hk)

/-- The end of a command is a function of the parameters, CMDL, IN_LEN and IN[0..N-1] (R100, R122). -/
theorem runCommand_congr {s s' : State} (hcaps : s'.caps = s.caps) (hcmd : s'.cmdl = s.cmdl)
    (hlen : s'.inLen = s.inLen) (hin : s'.input = s.input) : runCommand s' = runCommand s := by
  simp only [State.input, hlen] at hin
  simp only [runCommand, runEncode, runDecode, hcaps, hcmd, hlen, hin]

/-- The front of a buffer into which `bs` was stored is the front of `bs`, whatever the buffer held before (R98). -/
theorem bytes_storePrefix_of_le (m : Memory) {bs : List Byte} {n : Nat} (h : n ≤ bs.length) :
    (m.storePrefix bs).bytes n = bs.take n := by
  refine List.ext_getElem (by simp [h]) fun k hk _ => ?_
  rw [bytes_length] at hk
  rw [bytes_getElem, List.getElem_take]
  exact read_storePrefix_lt m (hk.trans_le h)

/-- OUT[0..OUT_LEN-1] after a result, with the length as far as the 32 bits of OUT_LEN hold it (R28, R98). -/
theorem finishCommand_output (r : Result) (s : State) :
    (finishCommand r s).output = r.out.take (BitVec.ofNat 32 r.out.length).toNat :=
  bytes_storePrefix_of_le s.outBuf ((BitVec.toNat_ofNat r.out.length 32).trans_le (Nat.mod_le _ _))

/-- Settles O35: both commands end the same way, and either end writes what it reports from that alone. -/
theorem commandDependsOnItsInputAlone : Obligations.CommandDependsOnItsInputAlone := by
  intro s s' t hcaps hcmd hlen hread h
  have hin : s'.input = s.input := by
    rw [State.input, hlen]
    exact bytes_congr hread
  have hrun : runCommand s' = runCommand s := runCommand_congr hcaps hcmd hlen hin
  obtain ⟨r, hr, rfl⟩ | ⟨e, he, rfl⟩ := completionStep_cases h
  · have hout : (finishCommand r s').output = (finishCommand r s).output := by simp only [finishCommand_output]
    refine ⟨finishCommand r s', by rw [completionStep, hrun, hr], rfl, rfl, rfl, fun _ => ?_⟩
    exact ⟨hout, rfl, rfl, rfl, rfl, rfl⟩
  · exact ⟨errorCompletion e s', by rw [completionStep, hrun, he], rfl, rfl, rfl, nofun⟩

end Sys2Proof.Machine
end

section
/-! PROOF. The stages of the encoder but for the tree: the frequencies and the alphabet (41_encoder.md section 2), and
the readers that undo the packer and the container writer (41_encoder.md sections 5 and 6). -/

namespace Sys2Proof.Machine

/-! ### Reading the container that was written -/

/-- The table `G` with the entries of `F` for the symbols `A` put into it. -/
def putAll (F : FreqTable) (A : List Byte) (G : FreqTable) : FreqTable :=
  A.foldl (fun T s => FreqTable.put T s (FreqTable.at F s)) G

/-- Reading the pairs of the symbols `A`, none of which the table `G` has yet, puts those pairs into `G` and leaves the
bytes after them (R119, R131). -/
theorem readPairs_writePairs {F G : FreqTable} {A : List Byte} (hnodup : A.Nodup)
    (hF : ∀ s ∈ A, FreqTable.at F s ≠ 0#32) (hG : ∀ s ∈ A, FreqTable.at G s = 0#32) (rest : List Byte) :
    readPairs A.length (writePairs F A ++ rest) G = some (putAll F A G, rest) := by
  induction A generalizing G with
  | nil => rfl
  | cons a A ih =>
    obtain ⟨ha, hnodup⟩ := List.nodup_cons.1 hnodup
    have haF := hF a List.mem_cons_self
    have haG := hG a List.mem_cons_self
    have hput : ∀ s ∈ A, FreqTable.at (FreqTable.put G a (FreqTable.at F a)) s = 0#32 := fun s hs => by
      have hne : a ≠ s := fun h => ha (h ▸ hs)
      rw [put_at, if_neg hne, hG s (List.mem_cons_of_mem _ hs)]
    simp only [writePairs_cons, List.length_cons, List.cons_append, readPairs, rdU32le_u32le, haF, haG, ne_eq,
      not_true_eq_false, or_self, if_false]
    exact ih hnodup (fun s hs => hF s (List.mem_cons_of_mem _ hs)) hput

theorem putAll_at (F G : FreqTable) (A : List Byte) (x : Byte) :
    FreqTable.at (putAll F A G) x = if x ∈ A then FreqTable.at F x else FreqTable.at G x := by
  induction A generalizing G with
  | nil => rfl
  | cons a A ih =>
    rw [putAll, List.foldl_cons, ← putAll, ih, put_at]
    by_cases ha : a = x
    · simp [ha]
    · simp [ha, Ne.symm ha]

/-- Putting the entries of the whole alphabet into an empty table gives the table back (R108). -/
theorem putAll_alphabet (F : FreqTable) : putAll F (alphabet F) (Vector.replicate 256 0#32) = F := by
  refine table_ext fun x => ?_
  rw [putAll_at, replicate_at]
  split
  · rfl
  · rename_i hx
    exact (not_not.1 (mem_alphabet.not.1 hx)).symm

/-- Settles O52: the pairs of the alphabet give the table back, and the fields after them are read as written. -/
theorem readTableOfWriteContainerIsTheTable : Obligations.ReadTableOfWriteContainerIsTheTable := by
  intro F bc md P hpos hle hbc hmd hP
  have hn : (BitVec.ofNat 8 (alphabet F).length).toNat = (alphabet F).length :=
    (BitVec.toNat_ofNat _ 8).trans (Nat.mod_eq_of_lt (Nat.lt_succ_of_le hle))
  have hn0 : BitVec.ofNat 8 (alphabet F).length ≠ 0#8 := fun h => by
    rw [h] at hn
    exact absurd hn (Nat.ne_of_lt hpos)
  have hpairs := readPairs_writePairs (G := Vector.replicate 256 0#32) (alphabet_nodup F)
    (fun _ => mem_alphabet.1) (fun s _ => replicate_at _ s)
    (u32le (BitVec.ofNat 32 bc) ++ BitVec.ofNat 8 md :: P)
  rw [putAll_alphabet] at hpairs
  have hlength := writeContainer_length (alphabet F) F bc md P
  rw [hP] at hlength
  have hmd8 : md % 2 ^ 8 = md := Nat.mod_eq_of_lt (by omega)
  rw [writeContainer_eq] at hlength ⊢
  simp only [u32le, List.cons_append, List.nil_append] at hpairs
  simp only [readTable, hn0, if_false, hn, hlength, hpairs, rdU32le_u32le, BitVec.toNat_ofNat, Nat.mod_eq_of_lt hbc,
    hmd8]
  rw [if_neg (by omega), if_neg (by omega), if_neg (by omega)]

/-! ### Unpacking the bit string that was packed -/

/-- The first bits of a byte packed from at most 8 bits are those bits (R118, R134). -/
theorem take_unpackByte_packByte {bs : Bits} (h : bs.length ≤ 8) :
    (unpackByte (packByte bs)).take bs.length = bs := by
  refine List.ext_getElem (by simp [h]) fun i _ hi => ?_
  rw [List.getElem_take, unpackByte_getElem, packByte_getLsbD h (hi.trans_le h), List.getD_eq_getElem _ _ hi]

/-- A full byte in front of a payload puts its 8 bits in front of the bit string (R134). -/
theorem unpackBits_cons (v : Byte) (P : List Byte) (bc md : Nat) :
    unpackBits (v :: P) (bc + 1) md = unpackByte v ++ unpackBits P bc md := by
  simp [unpackBits]

/-- Settles O47, by the first 8 bits, or the fewer there are. -/
theorem unpackOfPackIsTheBitString : Obligations.UnpackOfPackIsTheBitString := by
  intro bits
  induction h : bits.length using Nat.strong_induction_on generalizing bits with
  | _ n ih =>
    subst h
    rcases eq_or_ne bits [] with rfl | hne
    · rfl
    rw [packBits_eq hne]
    rcases Nat.lt_or_ge bits.length 8 with hshort | hlong
    case inl =>
      rw [List.take_of_length_le hshort.le, List.drop_eq_nil_of_le hshort.le, Nat.div_eq_of_lt hshort,
        Nat.mod_eq_of_lt hshort]
      exact (unpackBits_append_partial [] (packByte bits) bits.length).trans (take_unpackByte_packByte hshort.le)
    case inr =>
      have hfull : unpackByte (packByte (bits.take 8)) = bits.take 8 := by
        have h8 : (bits.take 8).length = 8 := List.length_take_of_le hlong
        have := take_unpackByte_packByte h8.le
        rwa [h8, List.take_of_length_le (unpackByte_length _).le] at this
      have hrest := ih (bits.drop 8).length (by rw [List.length_drop]; omega) (bits.drop 8) rfl
      rw [List.length_drop] at hrest
      obtain ⟨m, hm⟩ := Nat.exists_eq_add_of_le' hlong
      rw [hm, Nat.add_sub_cancel] at hrest
      rw [hm, Nat.add_div_right m (by decide), Nat.add_mod_right, unpackBits_cons, hfull, hrest, List.take_append_drop]

/-! ### The frequencies and the alphabet -/

theorem allSymbols_nodup : allSymbols.Nodup :=
  allSymbols_sorted.imp fun h e => absurd (congrArg BitVec.toNat e) h.ne

/-- The numbers of occurrences of all symbols sum to the length. -/
theorem sum_count_allSymbols (bs : List Byte) : (allSymbols.map bs.count).sum = bs.length := by
  have hall := mem_allSymbols
  have hnodup := allSymbols_nodup
  generalize allSymbols = l at hall hnodup ⊢
  rw [← List.sum_toFinset _ hnodup]
  simpa using Multiset.sum_count_eq_card (m := (bs : Multiset Byte)) fun s _ => List.mem_toFinset.2 (hall s)

theorem freqSum_eq (F : FreqTable) : freqSum F = (allSymbols.map fun s => (FreqTable.at F s).toNat).sum := by
  rw [freqSum, table_toList, List.map_map]
  rfl

/-- The frequencies of the alphabet have the sum of all frequencies: the others are 0 (R107, R108). -/
theorem sum_alphabet (F : FreqTable) : ((alphabet F).map fun s => (FreqTable.at F s).toNat).sum = freqSum F := by
  rw [freqSum_eq, alphabet_eq_filter]
  generalize allSymbols = l
  induction l with
  | nil => rfl
  | cons s l ih =>
    by_cases hs : FreqTable.at F s = 0#32
    · simp [hs, ih]
    · simp [hs, ih]

/-- The frequencies of an input sum to its length (R107). -/
theorem freqSum_freqAnalyze {bs : List Byte} (h : bs.length < 2 ^ 32) : freqSum (freqAnalyze bs) = bs.length := by
  rw [freqSum_eq]
  simp only [freqAnalyze_toNat h]
  exact sum_count_allSymbols bs

/-- Settles O38. -/
theorem frequenciesCountOccurrencesAndSumToTheLength : Obligations.FrequenciesCountOccurrencesAndSumToTheLength := by
  intro bs h
  refine ⟨freqAnalyze_toNat h, fun bs' hperm => table_ext fun s => ?order, freqSum_freqAnalyze h⟩
  case order => rw [freqAnalyze_at, freqAnalyze_at, hperm.count_eq]

/-- Settles O39: the alphabet of a non-empty input has the first byte of the input. -/
theorem alphabetIsTheAscendingListOfPresentSymbols : Obligations.AlphabetIsTheAscendingListOfPresentSymbols := by
  refine ⟨fun F => ⟨alphabet_sorted F, fun x => ?present⟩, fun bs hpos hlen => ⟨?nonempty, alphabet_length_le _⟩⟩
  case present =>
    rw [mem_alphabet, Nat.pos_iff_ne_zero, ne_eq, ne_eq, BitVec.toNat_eq, BitVec.toNat_ofNat, Nat.zero_mod]
  case nonempty =>
    obtain ⟨b, hb⟩ := List.exists_mem_of_length_pos hpos
    exact List.length_pos_of_mem ((mem_alphabet_freqAnalyze hlen).2 hb)

end Sys2Proof.Machine
end

section
/-! PROOF. What the tree builder makes (41_encoder.md section 3): the least node is extracted (R111), and every set of
nodes that the merging loop works on keeps one invariant, `Forest`, from which the statements on the tree follow. -/

namespace Sys2Proof.Machine

/-! ### The priority order -/

/-- What the priority order compares: the weight, then the sequence number (R111). -/
def Tree.key (t : Tree) : ℕ ×ₗ ℕ := toLex (t.weight.toNat, t.idx)

theorem key_lt_iff {t u : Tree} :
    t.key < u.key ↔ t.weight.toNat < u.weight.toNat ∨ (t.weight.toNat = u.weight.toNat ∧ t.idx < u.idx) :=
  Prod.Lex.toLex_lt_toLex

theorem key_le_iff {t u : Tree} :
    t.key ≤ u.key ↔ t.weight.toNat < u.weight.toNat ∨ (t.weight.toNat = u.weight.toNat ∧ t.idx ≤ u.idx) :=
  Prod.Lex.toLex_le_toLex

theorem before_iff {t u : Tree} : t.before u = true ↔ t.key < u.key := by
  rw [key_lt_iff]
  simp [Tree.before]

theorem before_eq_false_iff {t u : Tree} : t.before u = false ↔ u.key ≤ t.key := by
  rw [← Bool.not_eq_true, before_iff, not_lt]

theorem key_lt_of_le {t u : Tree} (h : t.key ≤ u.key) (hne : t.idx ≠ u.idx) : t.key < u.key :=
  lt_of_le_of_ne h fun he => hne (congrArg Prod.snd he)

/-! ### Extraction -/

/-- The node extracted is the least (R111). -/
theorem popMin_least (t : Tree) (q : List Tree) : ∀ y ∈ (popMin t q).2, (popMin t q).1.key ≤ y.key := by
  induction q generalizing t with
  | nil => nofun
  | cons u us ih =>
    simp only [popMin]
    split
    case isTrue h =>
      have hlt := before_iff.1 h
      intro y hy
      obtain rfl | hy := List.mem_cons.1 hy
      · exact hlt.le
      · exact hlt.le.trans (ih u y hy)
    case isFalse h =>
      intro y hy
      obtain rfl | hy := List.mem_cons.1 hy
      · exact before_eq_false_iff.1 (Bool.not_eq_true _ ▸ h)
      · exact ih u y hy

theorem popMin_eq_least {t x : Tree} {q rest : List Tree} (h : popMin t q = (x, rest)) : ∀ y ∈ rest, x.key ≤ y.key := by
  have := popMin_least t q
  rwa [h] at this

/-- Settles O40. -/
theorem extractionTakesTheLeastNode : Obligations.ExtractionTakesTheLeastNode := by
  intro t x q rest h
  have hperm := popMin_eq_perm h
  have hleast := popMin_eq_least h
  refine ⟨hperm, fun y hy => key_le_iff.1 (hleast y hy), fun hdistinct y hy => ?only⟩
  case only =>
    have hne : x.idx ≠ y.idx := List.rel_of_pairwise_cons (hdistinct.perm hperm.symm Ne.symm) hy
    exact ⟨before_iff.2 (key_lt_of_le (hleast y hy) hne), before_eq_false_iff.2 (hleast y hy)⟩

/-! ### The nodes of a tree and its arena -/

/-- A tree and the trees of its descendants, in the order of `Tree.arena`. -/
def Tree.subtrees : Tree → List Tree
  | .leaf i s w => [.leaf i s w]
  | .internal i w l r => .internal i w l r :: (l.subtrees ++ r.subtrees)

/-- The arena entry of a tree's root (R37). -/
def Tree.entry : Tree → Nat × Node
  | .leaf i s w => (i, .leaf s w)
  | .internal i w l r => (i, .internal w l.idx r.idx)

@[simp] theorem entry_fst (t : Tree) : t.entry.1 = t.idx := by cases t <;> rfl

@[simp] theorem entry_weight (t : Tree) : t.entry.2.weight = t.weight := by cases t <;> rfl

theorem entryBefore_iff {t u : Tree} : entryBefore t.entry u.entry ↔ t.key < u.key := by
  rw [key_lt_iff, entryBefore, entry_fst, entry_fst, entry_weight, entry_weight]

/-- The arena lists the entries of the tree's nodes. -/
theorem arena_eq (t : Tree) : t.arena = t.subtrees.map Tree.entry := by
  induction t with
  | leaf i s w => rfl
  | internal i w l r ihl ihr => simp [Tree.arena, Tree.subtrees, Tree.entry, ihl, ihr]

theorem arena_map_fst (t : Tree) : t.arena.map Prod.fst = t.subtrees.map Tree.idx := by
  rw [arena_eq, List.map_map]
  exact List.map_congr_left fun u _ => entry_fst u

theorem entry_mem_arena {t u : Tree} (h : u ∈ t.subtrees) : u.entry ∈ t.arena :=
  arena_eq t ▸ List.mem_map_of_mem h

theorem leaf_mem_arena {t : Tree} {k : Nat} {x : Byte} {w : Weight} :
    (k, Node.leaf x w) ∈ t.arena ↔ Tree.leaf k x w ∈ t.subtrees := by
  refine ⟨fun h => ?_, entry_mem_arena⟩
  rw [arena_eq] at h
  obtain ⟨u, hu, he⟩ := List.mem_map.1 h
  cases u <;> cases he
  exact hu

theorem internal_mem_arena {t : Tree} {k l r : Nat} {w : Weight} (h : (k, Node.internal w l r) ∈ t.arena) :
    ∃ x y, Tree.internal k w x y ∈ t.subtrees ∧ x.idx = l ∧ y.idx = r := by
  rw [arena_eq] at h
  obtain ⟨u, hu, he⟩ := List.mem_map.1 h
  cases u <;> cases he
  exact ⟨_, _, hu, rfl, rfl⟩

theorem self_mem_subtrees (t : Tree) : t ∈ t.subtrees := by cases t <;> exact List.mem_cons_self

/-- The children of a tree's nodes are nodes of it. -/
theorem children_mem_subtrees {t x y : Tree} {k : Nat} {w : Weight} (h : Tree.internal k w x y ∈ t.subtrees) :
    x ∈ t.subtrees ∧ y ∈ t.subtrees := by
  induction t with
  | leaf i s w => exact nomatch List.mem_singleton.1 h
  | internal i w l r ihl ihr =>
    simp only [Tree.subtrees, List.mem_cons, List.mem_append] at h ⊢
    obtain h | h | h := h
    · cases h
      exact ⟨.inr (.inl (self_mem_subtrees _)), .inr (.inr (self_mem_subtrees _))⟩
    · exact (ihl h).imp (fun h => .inr (.inl h)) (fun h => .inr (.inl h))
    · exact (ihr h).imp (fun h => .inr (.inr h)) (fun h => .inr (.inr h))

/-- The indices of an entry's children. -/
def Node.children : Node → List Nat
  | .leaf _ _ => []
  | .internal _ l r => [l, r]

@[simp] theorem idx_internal (k : Nat) (w : Weight) (x y : Tree) : (Tree.internal k w x y).idx = k := rfl

@[simp] theorem weight_internal (k : Nat) (w : Weight) (x y : Tree) : (Tree.internal k w x y).weight = w := rfl

/-- Every node but the root is the child of exactly one node (R113). -/
theorem children_perm (t : Tree) :
    (t.idx :: t.arena.flatMap fun e => e.2.children).Perm (t.arena.map Prod.fst) := by
  induction t with
  | leaf i s w => exact List.Perm.refl _
  | internal i w l r ihl ihr =>
    have hmiddle := List.perm_middle (a := r.idx) (l₁ := l.idx :: l.arena.flatMap fun e => e.2.children)
      (l₂ := r.arena.flatMap fun e => e.2.children)
    simp only [Tree.arena, idx_internal, List.flatMap_cons, List.flatMap_append, List.map_cons, List.map_append]
    exact ((List.Perm.swap _ _ _).trans (hmiddle.symm.trans (ihl.append ihr))).cons i

/-! ### The sets of nodes of the merging loop -/

/-- All nodes below the nodes of a set. -/
def nodes (l : List Tree) : List Tree := l.flatMap Tree.subtrees

theorem nodes_perm {l l' : List Tree} (h : l.Perm l') : (nodes l).Perm (nodes l') := h.flatMap_right _

theorem nodes_singleton (t : Tree) : nodes [t] = t.subtrees := List.flatMap_singleton _ _

/-- A merge makes one node. -/
theorem nodes_merge (k : Nat) (w : Weight) (x y : Tree) (rest : List Tree) :
    nodes (.internal k w x y :: rest) = .internal k w x y :: nodes (x :: y :: rest) := by
  simp [nodes, Tree.subtrees]

theorem sublist_nodes (l : List Tree) : l.Sublist (nodes l) := by
  induction l with
  | nil => exact List.Sublist.refl _
  | cons t l ih => exact (List.singleton_sublist.2 (self_mem_subtrees t)).append ih

theorem nodes_leavesFrom (F : FreqTable) (k : Nat) (A : List Byte) : nodes (leavesFrom F k A) = leavesFrom F k A := by
  induction A generalizing k with
  | nil => rfl
  | cons s A ih => exact congrArg (mkLeaf F k s :: ·) (ih (k + 1))

theorem leavesFrom_idx (F : FreqTable) (k : Nat) (A : List Byte) :
    (leavesFrom F k A).map Tree.idx = List.range' k A.length := by
  induction A generalizing k with
  | nil => rfl
  | cons s A ih => exact congrArg (k :: ·) (ih (k + 1))

theorem mkLeaf_weight (F : FreqTable) (k : Nat) (s : Byte) :
    (mkLeaf F k s).weight.toNat = (FreqTable.at F s).toNat := by
  have h := (FreqTable.at F s).isLt
  rw [mkLeaf, Tree.weight, BitVec.zeroExtend, BitVec.toNat_setWidth]
  omega

theorem leavesFrom_weight (F : FreqTable) (k : Nat) (A : List Byte) :
    (leavesFrom F k A).map (fun t => t.weight.toNat) = A.map fun s => (FreqTable.at F s).toNat := by
  induction A generalizing k with
  | nil => rfl
  | cons s A ih => rw [leavesFrom, List.map_cons, List.map_cons, mkLeaf_weight, ih]

theorem leavesFrom_getElem (F : FreqTable) (k : Nat) (A : List Byte) {i : Nat} (h : i < (leavesFrom F k A).length) :
    (leavesFrom F k A)[i] = mkLeaf F (k + i) (A[i]'(leavesFrom_length F k A ▸ h)) := by
  induction A generalizing k i with
  | nil => cases h
  | cons s A ih =>
    cases i with
    | zero => rfl
    | succ i =>
      have := ih (k + 1) (Nat.lt_of_succ_lt_succ h)
      rw [Nat.add_right_comm] at this
      exact this

theorem mem_leavesFrom {F : FreqTable} {A : List Byte} {t : Tree} :
    t ∈ leavesFrom F 0 A ↔ ∃ (i : Nat) (h : i < A.length), t = mkLeaf F i A[i] := by
  rw [List.mem_iff_getElem]
  constructor
  · rintro ⟨i, hi, rfl⟩
    have h := leavesFrom_getElem F 0 A hi
    rw [Nat.zero_add] at h
    exact ⟨i, leavesFrom_length F 0 A ▸ hi, h⟩
  · rintro ⟨i, hi, rfl⟩
    have hi' : i < (leavesFrom F 0 A).length := (leavesFrom_length F 0 A).symm ▸ hi
    have h := leavesFrom_getElem F 0 A hi'
    rw [Nat.zero_add] at h
    exact ⟨i, hi', h⟩

/-- The induction over the merges from the leaves to the root. -/
theorem buildTree_induct {P : Nat → List Tree → Prop} {F : FreqTable} {a : Byte} {as : List Byte}
    (perm : ∀ next l l', l.Perm l' → P next l → P next l')
    (merge : ∀ next x y rest, P next (x :: y :: rest) → (∀ z ∈ y :: rest, x.key ≤ z.key) →
      (∀ z ∈ rest, y.key ≤ z.key) → P (next + 1) (.internal next (x.weight + y.weight) x y :: rest))
    (leaves : P (as.length + 1) (leavesFrom F 0 (a :: as))) :
    P (2 * (a :: as).length - 1) [buildTree F a as] := by
  have hroot := mergeLoop_induct (P := P) (next := as.length + 1) (t := mkLeaf F 0 a) (q := leavesFrom F 1 as) ?_ leaves
  · rw [leavesFrom_length] at hroot
    rwa [show 2 * (a :: as).length - 1 = as.length + 1 + as.length by rw [List.length_cons]; omega]
  · intro next t q x v vs y rest h hx hy
    have hperm : (t :: q).Perm (x :: y :: rest) := (popMin_eq_perm hx).symm.trans ((popMin_eq_perm hy).symm.cons x)
    refine merge next x y rest (perm next _ _ hperm h) (fun z hz => ?_) (popMin_eq_least hy)
    exact popMin_eq_least hx z ((popMin_eq_perm hy).subset hz)

/-- The sum of the frequencies of the symbols `A`. -/
def totalOf (F : FreqTable) (A : List Byte) : Nat := (A.map fun s => (FreqTable.at F s).toNat).sum

theorem totalOf_lt (F : FreqTable) {A : List Byte} (h : A.length ≤ 256) : totalOf F A < 2 ^ 40 := by
  have hle : totalOf F A ≤ (A.map fun s => (FreqTable.at F s).toNat).length • (2 ^ 32 - 1) :=
    List.sum_le_card_nsmul _ _ fun n hn => by
      obtain ⟨s, -, rfl⟩ := List.mem_map.1 hn
      exact Nat.le_pred_of_lt (FreqTable.at F s).isLt
  rw [List.length_map, smul_eq_mul] at hle
  have : A.length * (2 ^ 32 - 1) ≤ 256 * (2 ^ 32 - 1) := Nat.mul_le_mul_right _ h
  omega

/-- What the merging loop keeps of its set of nodes `l`, for the alphabet `A`; `next` is the next free arena index. -/
structure Forest (F : FreqTable) (A : List Byte) (next : Nat) (l : List Tree) : Prop where
  /-- the indices below `next` are used, each once (R110) -/
  indices : ((nodes l).map Tree.idx).Perm (List.range next)
  /-- no leaf is made or lost (R110) -/
  leaves : ∀ k s w, Tree.leaf k s w ∈ nodes l ↔ Tree.leaf k s w ∈ leavesFrom F 0 A
  /-- children stand below their parent in the arena (R113) -/
  lower : ∀ k w x y, Tree.internal k w x y ∈ nodes l → x.idx < k ∧ y.idx < k
  /-- the weights of the set sum to the frequencies (R109) -/
  total : (l.map fun t => t.weight.toNat).sum = totalOf F A
  /-- no weight overflows (R109) -/
  sums : ∀ k w x y, Tree.internal k w x y ∈ nodes l → w.toNat = x.weight.toNat + y.weight.toNat
  /-- the first node extracted is the left child (R111) -/
  siblings : ∀ k w x y, Tree.internal k w x y ∈ nodes l → x.key < y.key
  /-- a merge extracts before a later merge (R111) -/
  merges : ∀ k w x y k' w' x' y', Tree.internal k w x y ∈ nodes l → Tree.internal k' w' x' y' ∈ nodes l → k < k' →
    y.key < x'.key
  /-- what was extracted comes before what is left (R111) -/
  extracted : ∀ k w x y, Tree.internal k w x y ∈ nodes l → ∀ t ∈ l, y.key < t.key

theorem Forest.perm {F : FreqTable} {A : List Byte} {next : Nat} {l l' : List Tree} (hl : l.Perm l')
    (h : Forest F A next l) : Forest F A next l' := by
  have hn := nodes_perm hl
  have mem : ∀ {t}, t ∈ nodes l' → t ∈ nodes l := fun ht => hn.mem_iff.2 ht
  exact {
    indices := (hn.map _).symm.trans h.indices
    leaves := fun k s w => hn.mem_iff.symm.trans (h.leaves k s w)
    lower := fun k w x y hk => h.lower k w x y (mem hk)
    total := (hl.map _).sum_eq.symm.trans h.total
    sums := fun k w x y hk => h.sums k w x y (mem hk)
    siblings := fun k w x y hk => h.siblings k w x y (mem hk)
    merges := fun k w x y k' w' x' y' hk hk' => h.merges k w x y k' w' x' y' (mem hk) (mem hk')
    extracted := fun k w x y hk t ht => h.extracted k w x y (mem hk) t (hl.mem_iff.2 ht) }

theorem Forest.idx_lt {F : FreqTable} {A : List Byte} {next : Nat} {l : List Tree} (h : Forest F A next l) {t : Tree}
    (ht : t ∈ nodes l) : t.idx < next :=
  List.mem_range.1 (h.indices.subset (List.mem_map_of_mem ht))

theorem Forest.idx_nodup {F : FreqTable} {A : List Byte} {next : Nat} {l : List Tree} (h : Forest F A next l) :
    ((nodes l).map Tree.idx).Nodup :=
  h.indices.nodup_iff.2 List.nodup_range

/-- The nodes of the set have different indices. -/
theorem Forest.distinct {F : FreqTable} {A : List Byte} {next : Nat} {l : List Tree} (h : Forest F A next l) :
    l.Pairwise fun t u => t.idx ≠ u.idx :=
  List.pairwise_map.1 (h.idx_nodup.sublist ((sublist_nodes l).map _))

theorem forest_leavesFrom (F : FreqTable) (A : List Byte) : Forest F A A.length (leavesFrom F 0 A) := by
  have noInternal : ∀ {k w x y}, Tree.internal k w x y ∉ nodes (leavesFrom F 0 A) := by
    intro k w x y h
    rw [nodes_leavesFrom] at h
    obtain ⟨i, hi, he⟩ := mem_leavesFrom.1 h
    cases he
  exact {
    indices := by rw [nodes_leavesFrom, leavesFrom_idx, List.range_eq_range']
    leaves := fun k s w => by rw [nodes_leavesFrom]
    lower := fun _ _ _ _ h => (noInternal h).elim
    total := by rw [leavesFrom_weight]; rfl
    sums := fun _ _ _ _ h => (noInternal h).elim
    siblings := fun _ _ _ _ h => (noInternal h).elim
    merges := fun _ _ _ _ _ _ _ _ h => (noInternal h).elim
    extracted := fun _ _ _ _ h => (noInternal h).elim }

/-- The sum of the two least weights does not overflow (R109). -/
theorem Forest.merge_weight {F : FreqTable} {A : List Byte} {next : Nat} {x y : Tree} {rest : List Tree}
    (hA : A.length ≤ 256) (h : Forest F A next (x :: y :: rest)) :
    (x.weight + y.weight).toNat = x.weight.toNat + y.weight.toNat := by
  have htotal := h.total
  have hlt := totalOf_lt F hA
  simp only [List.map_cons, List.sum_cons] at htotal
  rw [BitVec.toNat_add]
  omega

/-- A merge of the two least nodes keeps the invariant. -/
theorem Forest.merge {F : FreqTable} {A : List Byte} {next : Nat} {x y : Tree} {rest : List Tree} (hA : A.length ≤ 256)
    (h : Forest F A next (x :: y :: rest)) (hx : ∀ z ∈ y :: rest, x.key ≤ z.key) (hy : ∀ z ∈ rest, y.key ≤ z.key) :
    Forest F A (next + 1) (.internal next (x.weight + y.weight) x y :: rest) := by
  have hw := h.merge_weight hA
  obtain ⟨hxne, hdistinct⟩ := List.pairwise_cons.1 h.distinct
  obtain ⟨hyne, -⟩ := List.pairwise_cons.1 hdistinct
  have hxn : x.idx < next := h.idx_lt ((sublist_nodes _).subset List.mem_cons_self)
  have hyn : y.idx < next := h.idx_lt ((sublist_nodes _).subset (List.mem_cons_of_mem _ List.mem_cons_self))
  have hxy : x.key < y.key := key_lt_of_le (hx y List.mem_cons_self) (hxne y List.mem_cons_self)
  have hyz : ∀ z ∈ .internal next (x.weight + y.weight) x y :: rest, y.key < z.key := by
    intro z hz
    obtain rfl | hz := List.mem_cons.1 hz
    · rw [key_lt_iff, weight_internal, hw, idx_internal]
      omega
    · exact key_lt_of_le (hy z hz) (hyne z hz)
  have cases_internal : ∀ {k w u v}, Tree.internal k w u v ∈ nodes (.internal next (x.weight + y.weight) x y :: rest) →
      (k = next ∧ w = x.weight + y.weight ∧ u = x ∧ v = y) ∨
      (k < next ∧ Tree.internal k w u v ∈ nodes (x :: y :: rest)) := by
    intro k w u v hk
    rw [nodes_merge] at hk
    obtain hk | hk := List.mem_cons.1 hk
    · cases hk
      exact .inl ⟨rfl, rfl, rfl, rfl⟩
    · exact .inr ⟨h.idx_lt hk, hk⟩
  refine ⟨?indices, fun k s w => ?leaves, fun k w u v hk => ?lower, ?total, fun k w u v hk => ?sums,
    fun k w u v hk => ?siblings, fun k w u v k' w' u' v' hk hk' hlt => ?merges, fun k w u v hk t ht => ?extracted⟩
  case indices =>
    rw [nodes_merge, List.map_cons, List.range_succ]
    exact (h.indices.cons next).trans (List.perm_append_singleton _ _).symm
  case leaves =>
    rw [nodes_merge, List.mem_cons, ← h.leaves k s w]
    exact or_iff_right nofun
  case lower =>
    obtain ⟨rfl, -, rfl, rfl⟩ | ⟨-, hold⟩ := cases_internal hk
    · exact ⟨hxn, hyn⟩
    · exact h.lower k w u v hold
  case total =>
    rw [← h.total]
    simp only [List.map_cons, List.sum_cons, weight_internal, hw, Nat.add_assoc]
  case sums =>
    obtain ⟨-, rfl, rfl, rfl⟩ | ⟨-, hold⟩ := cases_internal hk
    · exact hw
    · exact h.sums k w u v hold
  case siblings =>
    obtain ⟨-, -, rfl, rfl⟩ | ⟨-, hold⟩ := cases_internal hk
    · exact hxy
    · exact h.siblings k w u v hold
  case merges =>
    obtain ⟨rfl, -⟩ | ⟨-, hold⟩ := cases_internal hk <;> obtain ⟨rfl, -, rfl, -⟩ | ⟨hlt', hold'⟩ := cases_internal hk'
    · exact absurd hlt (lt_irrefl _)
    · exact absurd hlt hlt'.asymm
    · exact h.extracted k w u v hold _ List.mem_cons_self
    · exact h.merges k w u v k' w' u' v' hold hold' hlt
  case extracted =>
    obtain ⟨-, -, -, rfl⟩ | ⟨-, hold⟩ := cases_internal hk
    · exact hyz t ht
    · exact (h.extracted k w u v hold y (List.mem_cons_of_mem _ List.mem_cons_self)).trans (hyz t ht)

/-- The tree of an alphabet is what the merging loop keeps of the set when one node is left. -/
theorem buildTree_forest (F : FreqTable) {a : Byte} {as : List Byte} (hA : (a :: as).length ≤ 256) :
    Forest F (a :: as) (2 * (a :: as).length - 1) [buildTree F a as] :=
  buildTree_induct (P := Forest F (a :: as)) (fun _ _ _ hl h => h.perm hl) (fun _ _ _ _ h hx hy => h.merge hA hx hy)
    (forest_leavesFrom F (a :: as))

/-! ### The statements on the tree -/

/-- Where children have lower indices than their parents, the root has the highest. -/
theorem idx_le_root {t u : Tree} (lower : ∀ k w x y, Tree.internal k w x y ∈ t.subtrees → x.idx < k ∧ y.idx < k)
    (hu : u ∈ t.subtrees) : u.idx ≤ t.idx := by
  induction t with
  | leaf i s w => exact (List.mem_singleton.1 hu ▸ le_rfl)
  | internal i w l r ihl ihr =>
    obtain ⟨hl, hr⟩ := lower i w l r List.mem_cons_self
    simp only [Tree.subtrees, List.mem_cons, List.mem_append] at hu lower
    obtain rfl | hu | hu := hu
    · exact le_rfl
    · exact (ihl (fun k w x y hk => lower k w x y (.inr (.inl hk))) hu).trans hl.le
    · exact (ihr (fun k w x y hk => lower k w x y (.inr (.inr hk))) hu).trans hr.le

/-- Where weights are exact sums, the root is the heaviest. -/
theorem weight_le_root {t u : Tree}
    (sums : ∀ k w x y, Tree.internal k w x y ∈ t.subtrees → w.toNat = x.weight.toNat + y.weight.toNat)
    (hu : u ∈ t.subtrees) : u.weight.toNat ≤ t.weight.toNat := by
  induction t with
  | leaf i s w => exact (List.mem_singleton.1 hu ▸ le_rfl)
  | internal i w l r ihl ihr =>
    have hw := sums i w l r List.mem_cons_self
    simp only [Tree.subtrees, List.mem_cons, List.mem_append] at hu sums
    rw [Tree.weight, hw]
    obtain rfl | hu | hu := hu
    · exact hw.le
    · exact (ihl (fun k w x y hk => sums k w x y (.inr (.inl hk))) hu).trans (Nat.le_add_right _ _)
    · exact (ihr (fun k w x y hk => sums k w x y (.inr (.inr hk))) hu).trans (Nat.le_add_left _ _)

section
variable {F : FreqTable} {a : Byte} {as : List Byte}

/-- The arena uses the indices below 2n - 1, each once (R113). -/
theorem arena_indices (hA : (a :: as).length ≤ 256) :
    ((buildTree F a as).arena.map Prod.fst).Perm (List.range (2 * (a :: as).length - 1)) := by
  have h := (buildTree_forest F hA).indices
  rwa [nodes_singleton, ← arena_map_fst] at h

theorem arena_nodup (hA : (a :: as).length ≤ 256) : ((buildTree F a as).arena.map Prod.fst).Nodup :=
  (arena_indices hA).nodup_iff.2 List.nodup_range

/-- The leaves of the tree are those of the alphabet (R110). -/
theorem leaf_mem_subtrees (hA : (a :: as).length ≤ 256) {k : Nat} {s : Byte} {w : Weight} :
    Tree.leaf k s w ∈ (buildTree F a as).subtrees ↔
      ∃ (i : Nat) (h : i < (a :: as).length), Tree.leaf k s w = mkLeaf F i (a :: as)[i] := by
  rw [← nodes_singleton, (buildTree_forest F hA).leaves, mem_leavesFrom]

theorem children_idx_lt (hA : (a :: as).length ≤ 256) {k : Nat} {w : Weight} {x y : Tree}
    (h : Tree.internal k w x y ∈ (buildTree F a as).subtrees) : x.idx < k ∧ y.idx < k :=
  (buildTree_forest F hA).lower k w x y (nodes_singleton _ ▸ h)

theorem weight_eq_sum (hA : (a :: as).length ≤ 256) {k : Nat} {w : Weight} {x y : Tree}
    (h : Tree.internal k w x y ∈ (buildTree F a as).subtrees) : w.toNat = x.weight.toNat + y.weight.toNat :=
  (buildTree_forest F hA).sums k w x y (nodes_singleton _ ▸ h)

/-- The root is the last node made (R112). -/
theorem buildTree_idx (hA : (a :: as).length ≤ 256) : (buildTree F a as).idx = 2 * (a :: as).length - 2 := by
  have hindices := arena_indices (F := F) hA
  rw [arena_map_fst] at hindices
  have hroot := hindices.subset (List.mem_map_of_mem (self_mem_subtrees _))
  have hlast : 2 * (a :: as).length - 2 ∈ List.range (2 * (a :: as).length - 1) := by
    simp only [List.mem_range, List.length_cons]
    omega
  obtain ⟨u, hu, hidx⟩ := List.mem_map.1 (hindices.symm.subset hlast)
  have hle := idx_le_root (fun _ _ _ _ hk => children_idx_lt hA hk) hu
  rw [List.mem_range] at hroot
  omega

theorem buildTree_weight (hA : (a :: as).length ≤ 256) : (buildTree F a as).weight.toNat = totalOf F (a :: as) := by
  simpa using (buildTree_forest F hA).total

end

/-- Settles O41, by the invariant of the merging loop. -/
theorem treeUsesTheArenaAsR113Says : Obligations.TreeUsesTheArenaAsR113Says := by
  intro F a as hA
  have hA : (a :: as).length ≤ 256 := hA.trans (by decide)
  have hroot := buildTree_idx (F := F) hA
  refine ⟨hroot, arena_indices hA, fun k hk => ?leaf, fun k x w hk => ?leafIndex, fun k l r w hk => ?lower, ?children,
    fun hsingle => by rw [hsingle]; rfl⟩
  case leaf => exact leaf_mem_arena.2 ((leaf_mem_subtrees hA).2 ⟨k, hk, rfl⟩)
  case leafIndex =>
    obtain ⟨i, hi, he⟩ := (leaf_mem_subtrees hA).1 (leaf_mem_arena.1 hk)
    cases he
    exact hi
  case lower =>
    obtain ⟨x, y, hnode, rfl, rfl⟩ := internal_mem_arena hk
    exact children_idx_lt hA hnode
  case children =>
    have hall := (children_perm (buildTree F a as)).trans (arena_indices hA)
    rw [hroot, show 2 * (a :: as).length - 1 = 2 * (a :: as).length - 2 + 1 by simp only [List.length_cons]; omega,
      List.range_succ] at hall
    exact (hall.trans (List.perm_append_singleton _ _)).cons_inv

/-- Settles O42: what the set of nodes weighs is what the leaves weigh, so that no sum overflows. -/
theorem weightsAreExactSums : Obligations.WeightsAreExactSums := by
  intro F a as halphabet hA
  have hA : (a :: as).length ≤ 256 := hA.trans (by decide)
  have hroot : (buildTree F a as).weight.toNat = freqSum F := by
    rw [buildTree_weight hA, totalOf, ← halphabet, sum_alphabet]
  refine ⟨hroot, fun k l r w hk => ?sum, fun nd hnd => ?bound⟩
  case sum =>
    obtain ⟨x, y, hnode, rfl, rfl⟩ := internal_mem_arena hk
    obtain ⟨hx, hy⟩ := children_mem_subtrees hnode
    refine ⟨x.entry, entry_mem_arena hx, y.entry, entry_mem_arena hy, entry_fst x, entry_fst y, ?_⟩
    rw [entry_weight, entry_weight]
    exact weight_eq_sum hA hnode
  case bound =>
    rw [arena_eq] at hnd
    obtain ⟨u, hu, rfl⟩ := List.mem_map.1 hnd
    rw [entry_weight, ← hroot]
    exact weight_le_root (fun _ _ _ _ hk => weight_eq_sum hA hk) hu

/-- Settles O60, by the order that the merging loop keeps between what it extracted and what is left. -/
theorem childrenStandInTheOrderOfExtraction : Obligations.ChildrenStandInTheOrderOfExtraction := by
  intro F a as hA
  have forest := buildTree_forest F (hA.trans (by decide : 255 ≤ 256))
  refine ⟨fun k l r w hk => ?siblings, fun k k' l l' r r' w w' hlt hk hk' => ?merges⟩
  case siblings =>
    obtain ⟨x, y, hnode, rfl, rfl⟩ := internal_mem_arena hk
    obtain ⟨hx, hy⟩ := children_mem_subtrees hnode
    refine ⟨x.entry, entry_mem_arena hx, y.entry, entry_mem_arena hy, entry_fst x, entry_fst y, entryBefore_iff.2 ?_⟩
    exact forest.siblings k w x y (nodes_singleton _ ▸ hnode)
  case merges =>
    obtain ⟨x, y, hnode, rfl, rfl⟩ := internal_mem_arena hk
    obtain ⟨x', y', hnode', rfl, rfl⟩ := internal_mem_arena hk'
    have hy := (children_mem_subtrees hnode).2
    have hx' := (children_mem_subtrees hnode').1
    refine ⟨y.entry, entry_mem_arena hy, x'.entry, entry_mem_arena hx', entry_fst y, entry_fst x', entryBefore_iff.2 ?_⟩
    exact forest.merges k w x y k' w' x' y' (nodes_singleton _ ▸ hnode) (nodes_singleton _ ▸ hnode') hlt

end Sys2Proof.Machine
end

section
/-! PROOF. The codes as paths in the tree (41_encoder.md section 4), and the walk that reads them (42_decoder.md section
5). -/

namespace Sys2Proof.Machine

/-! ### Paths -/

/-- A path that goes on behind a leaf leads to no other. -/
theorem follow_append {t : Tree} {c e : Bits} {x y : Byte} (hx : t.follow c = some x)
    (hy : t.follow (c ++ e) = some y) : x = y := by
  induction t generalizing c with
  | leaf i s w =>
    cases c with
    | nil =>
      cases e with
      | nil => exact Option.some.inj (hx.symm.trans hy)
      | cons b e => cases hy
    | cons b c => cases hx
  | internal i w l r ihl ihr =>
    cases c with
    | nil => cases hx
    | cons b c =>
      cases b with
      | false => exact ihl hx hy
      | true => exact ihr hx hy

theorem symbols_length_pos (t : Tree) : 0 < t.symbols.length := by
  induction t with
  | leaf i s w => exact Nat.one_pos
  | internal i w l r ihl ihr =>
    rw [Tree.symbols, List.length_append]
    omega

/-- Each edge of a path leaves a leaf on its other side, so that a path has fewer edges than there are leaves (R114). -/
theorem follow_length_lt {t : Tree} {c : Bits} {x : Byte} (h : t.follow c = some x) :
    c.length < t.symbols.length := by
  induction t generalizing c with
  | leaf i s w =>
    cases c with
    | nil => exact Nat.one_pos
    | cons b c => cases h
  | internal i w l r ihl ihr =>
    have hl := symbols_length_pos l
    have hr := symbols_length_pos r
    rw [Tree.symbols, List.length_append]
    cases c with
    | nil => exact Nat.add_pos_left hl _
    | cons b c =>
      rw [List.length_cons]
      cases b with
      | false => have := ihl h; omega
      | true => have := ihr h; omega

/-- A path of the tree is a path of the arena, which ends at the entry of the leaf (R115). -/
theorem descend_follow {arena : List (Nat × Node)} (hnodup : (arena.map Prod.fst).Nodup) {t : Tree}
    (hsub : t.arena ⊆ arena) {c : Bits} {x : Byte} (h : t.follow c = some x) :
    ∃ (k : Nat) (w : Weight), descend arena t.idx c = some k ∧ (k, Node.leaf x w) ∈ arena := by
  induction t generalizing c with
  | leaf i s w =>
    cases c with
    | nil => cases h; exact ⟨i, w, rfl, hsub List.mem_cons_self⟩
    | cons b c => cases h
  | internal i w l r ihl ihr =>
    have hnode : nodeAt i arena = some (.internal w l.idx r.idx) := nodeAt_of_mem hnodup (hsub List.mem_cons_self)
    have hbelow := (List.cons_subset.1 hsub).2
    cases c with
    | nil => cases h
    | cons b c =>
      simp only [idx_internal, descend, hnode]
      cases b with
      | false => exact ihl (fun _ he => hbelow (List.mem_append_left _ he)) h
      | true => exact ihr (fun _ he => hbelow (List.mem_append_right _ he)) h

/-! ### Codes -/

section
variable {F : FreqTable} {a : Byte} {as : List Byte}

theorem buildTree_symbols_length : (buildTree F a as).symbols.length = as.length + 1 :=
  (buildTree_symbols F a as).length_eq

/-- With two symbols or more the root is an internal node. -/
theorem buildTree_ne_leaf (h : as ≠ []) (i : Nat) (s : Byte) (w : Weight) : buildTree F a as ≠ .leaf i s w := by
  intro he
  have hlen := buildTree_symbols_length (F := F) (a := a) (as := as)
  rw [he] at hlen
  exact h (List.length_eq_zero_iff.1 (Nat.succ.inj hlen).symm)

/-- A code has at most n - 1 bits (R114). -/
theorem codeOf_length_le {x : Byte} {c : Bits} (h : codeOf x (codeGen (buildTree F a as)) = some c) :
    c.length ≤ as.length := by
  have hlt := follow_length_lt (follow_codeOf h)
  rw [buildTree_symbols_length] at hlt
  exact Nat.le_of_lt_succ hlt

end

/-- The entry of a symbol in the table of code lengths, where the codes fit its 8 bits (R33, R105). -/
theorem depthTable_toNat {tbl : CodeTable} (hfit : ∀ x c, codeOf x tbl = some c → c.length < 256) (x : Byte) :
    ((depthTable tbl)[x.toNat]'x.isLt).toNat = match codeOf x tbl with | some c => c.length | none => 0 := by
  rw [depthTable, tableOf_getElem]
  cases hc : codeOf x tbl with
  | none => rfl
  | some c => exact (BitVec.toNat_ofNat _ _).trans (Nat.mod_eq_of_lt (hfit x c hc))

/-- Settles O44: the root is no leaf, and a code is a path to a leaf. -/
theorem codesArePrefixFree : Obligations.CodesArePrefixFree := by
  intro F a as _ has x y c d hc hd
  have hx := follow_codeOf hc
  have hy := follow_codeOf hd
  refine ⟨?nonempty, ?notPrefix⟩
  case nonempty =>
    rintro rfl
    cases hroot : buildTree F a as with
    | leaf i s w => exact buildTree_ne_leaf has i s w hroot
    | internal i w l r => rw [hroot] at hx; cases hx
  case notPrefix =>
    rintro hne ⟨e, rfl⟩
    exact hne (follow_append hx hy)

/-- Settles O45. -/
theorem codeLengthsFitTheirField : Obligations.CodeLengthsFitTheirField := by
  intro F a as _
  refine ⟨fun x c => codeOf_length_le, fun hA x c hc => ?field⟩
  case field =>
    rw [depthTable_toNat (fun _ _ h => Nat.lt_succ_of_le ((codeOf_length_le h).trans (Nat.le_of_succ_le hA))), hc]

/-! ### The walk -/

theorem walkFrom_root_nil (root : Tree) : walkFrom root root [] = some [] := by
  simp [walkFrom]

/-- The translation of a byte and of the bytes after it (R117). -/
theorem translateBytes_cons {tbl : CodeTable} {b : Byte} {bs : List Byte} {bits : Bits}
    (h : translateBytes tbl (b :: bs) = some bits) :
    ∃ c rest, codeOf b tbl = some c ∧ translateBytes tbl bs = some rest ∧ bits = c ++ rest := by
  rw [translateBytes] at h
  split at h
  · rename_i c rest hc hrest
    cases h
    exact ⟨c, rest, hc, hrest, rfl⟩
  · cases h

/-- The walk reads the codes one after the other (R117, R136). -/
theorem walkFrom_translateBytes {root : Tree} (hroot : ∀ i s w, root ≠ .leaf i s w) {bs : List Byte} {bits : Bits}
    (h : translateBytes (codeGen root) bs = some bits) : walkFrom root root bits = some bs := by
  induction bs generalizing bits with
  | nil => cases h; exact walkFrom_root_nil root
  | cons b bs ih =>
    obtain ⟨c, rest, hc, hrest, rfl⟩ := translateBytes_cons h
    rw [walkFrom_follow root root hroot c rest b (follow_codeOf hc), ih hrest]
    rfl

/-- Settles O55. -/
theorem walkOfTranslationIsTheInput : Obligations.WalkOfTranslationIsTheInput := fun _ _ _ _ _ _ has =>
  walkFrom_translateBytes (buildTree_ne_leaf has)

/-- Settles O43: a code is the path to the symbol's leaf, and the walk follows it. -/
theorem codesAreThePathsToTheLeaves : Obligations.CodesAreThePathsToTheLeaves := by
  intro F a as halphabet
  have hA : (a :: as).length ≤ 256 := halphabet ▸ alphabet_length_le F
  refine ⟨fun x => ?domain, fun hsingle => ?single, fun x c hc => ?path, fun has x c hc => ?walk⟩
  case domain => rw [codeGen_isSome, halphabet, (buildTree_symbols F a as).mem_iff]
  case single =>
    subst hsingle
    exact if_pos rfl
  case path => exact descend_follow (arena_nodup hA) (List.Subset.refl _) (follow_codeOf hc)
  case walk =>
    have hwalk := walkFrom_follow (buildTree F a as) _ (buildTree_ne_leaf has) c [] x (follow_codeOf hc)
    rwa [List.append_nil, walkFrom_root_nil] at hwalk

end Sys2Proof.Machine
end

section
/-! PROOF. The length of the coded input (41_encoder.md sections 5 and 7): it is what the merges cost. -/

namespace Sys2Proof.Machine

/-! ### What the merges cost

The coded length is the sum of the weights of the internal nodes, which is what the merges cost. The cost is bounded by
a budget that holds for the leaves and that every merge of the two least weights keeps. -/

/-- `b` pays for merging the weights `ws` to one: it pays for each weight at depth `k`, and once more for the weights
`lower`, which stand at depth `k + 1`, and a binary tree has room for the weights at these depths. -/
def Budget (ws : Multiset ℕ) (b : ℕ) : Prop :=
  ∃ (k : ℕ) (lower : Multiset ℕ), lower ≤ ws ∧ 2 * ws.card ≤ 2 ^ (k + 1) + lower.card ∧ k * ws.sum + lower.sum ≤ b

/-- A budget for 2 or more weights can have 2 or more of them at the lower depth. -/
theorem Budget.two_lower {ws : Multiset ℕ} {b : ℕ} (h : Budget ws b) (hws : 2 ≤ ws.card) :
    ∃ (k : ℕ) (lower : Multiset ℕ), 2 ≤ lower.card ∧ lower ≤ ws ∧ 2 * ws.card ≤ 2 ^ (k + 1) + lower.card ∧
      k * ws.sum + lower.sum ≤ b := by
  obtain ⟨k, lower, hle, hroom, hpay⟩ := h
  rcases Nat.lt_or_ge lower.card 2 with hfew | hmany
  case inr => exact ⟨k, lower, hmany, hle, hroom, hpay⟩
  case inl =>
    cases k with
    | zero => omega
    | succ k =>
      refine ⟨k, ws, hws, le_rfl, ?_, ?_⟩
      · rw [Nat.pow_succ] at hroom
        omega
      · rw [← Nat.succ_mul]
        exact (Nat.le_add_right _ _).trans hpay

/-- The least weight can stand at the lower depth, in the place of another. -/
theorem exists_lower_of_least {m : ℕ} {rest lower : Multiset ℕ} (hle : lower ≤ m ::ₘ rest) (hleast : ∀ z ∈ rest, m ≤ z)
    (hpos : 0 < lower.card) :
    ∃ lower' ≤ rest, lower'.card + 1 = lower.card ∧ lower'.sum + m ≤ lower.sum := by
  by_cases hm : m ∈ lower
  · obtain ⟨lower', rfl⟩ := Multiset.exists_cons_of_mem hm
    refine ⟨lower', (Multiset.cons_le_cons_iff m).1 hle, (Multiset.card_cons _ _).symm, ?_⟩
    rw [Multiset.sum_cons, Nat.add_comm]
  · obtain ⟨u, hu⟩ := Multiset.card_pos_iff_exists_mem.1 hpos
    obtain ⟨lower', rfl⟩ := Multiset.exists_cons_of_mem hu
    have hrest := (Multiset.le_cons_of_notMem hm).1 hle
    have hmu := hleast u (Multiset.mem_of_le hrest hu)
    refine ⟨lower', (Multiset.le_cons_self _ _).trans hrest, (Multiset.card_cons _ _).symm, ?_⟩
    rw [Multiset.sum_cons]
    omega

/-- A merge of the two least weights is paid for: both stand at the lower depth, and their sum one edge above it. -/
theorem Budget.merge {x y b : ℕ} {rest : Multiset ℕ} (h : Budget (x ::ₘ y ::ₘ rest) b)
    (hx : ∀ z ∈ y ::ₘ rest, x ≤ z) (hy : ∀ z ∈ rest, y ≤ z) :
    ∃ b', b' + (x + y) = b ∧ Budget ((x + y) ::ₘ rest) b' := by
  obtain ⟨k, lower, htwo, hle, hroom, hpay⟩ := h.two_lower (by simp)
  obtain ⟨lower₁, hle₁, hcard₁, hsum₁⟩ := exists_lower_of_least hle hx (by omega)
  obtain ⟨lower₂, hle₂, hcard₂, hsum₂⟩ := exists_lower_of_least hle₁ hy (by omega)
  refine ⟨b - (x + y), by omega, k, lower₂, hle₂.trans (Multiset.le_cons_self _ _), ?room, ?pay⟩
  case room =>
    simp only [Multiset.card_cons] at hroom ⊢
    omega
  case pay =>
    simp only [Multiset.sum_cons, ← Nat.add_assoc] at hpay ⊢
    omega

/-- Up to 256 weights fit in at depth 8. -/
theorem budget_of_card_le {ws : Multiset ℕ} (h : ws.card ≤ 256) : Budget ws (8 * ws.sum) :=
  ⟨7, ws, le_rfl, by omega, by omega⟩

/-- The weights of the internal nodes of a tree, summed. -/
def Tree.cost : Tree → ℕ
  | .leaf _ _ _ => 0
  | .internal _ w l r => w.toNat + l.cost + r.cost

theorem leavesFrom_cost (F : FreqTable) (k : Nat) (A : List Byte) : ((leavesFrom F k A).map Tree.cost).sum = 0 := by
  induction A generalizing k with
  | nil => rfl
  | cons s A ih => exact (Nat.zero_add _).trans (ih (k + 1))

/-- The weights of a set of nodes. -/
def weights (l : List Tree) : Multiset ℕ := (l.map fun t => t.weight.toNat : List ℕ)

theorem weights_cons (t : Tree) (l : List Tree) : weights (t :: l) = t.weight.toNat ::ₘ weights l := rfl

theorem weights_perm {l l' : List Tree} (h : l.Perm l') : weights l = weights l' := Multiset.coe_eq_coe.2 (h.map _)

theorem weights_leavesFrom (F : FreqTable) (k : Nat) (A : List Byte) :
    (weights (leavesFrom F k A)).card = A.length ∧ (weights (leavesFrom F k A)).sum = totalOf F A := by
  rw [weights, leavesFrom_weight, Multiset.coe_card, List.length_map, Multiset.sum_coe]
  exact ⟨rfl, rfl⟩

theorem le_of_mem_weights {x : Tree} {l : List Tree} (h : ∀ t ∈ l, x.key ≤ t.key) :
    ∀ n ∈ weights l, x.weight.toNat ≤ n := by
  intro n hn
  obtain ⟨t, ht, rfl⟩ := List.mem_map.1 (Multiset.mem_coe.1 hn)
  obtain hlt | ⟨heq, -⟩ := key_le_iff.1 (h t ht)
  · exact hlt.le
  · exact heq.le

/-- A set of nodes of the merging loop, with a budget for the merges to come that leaves the cost of those made within 8
times the frequencies. -/
structure PaidForest (F : FreqTable) (A : List Byte) (next : Nat) (l : List Tree) : Prop extends Forest F A next l where
  paid : ∃ b, Budget (weights l) b ∧ b + (l.map Tree.cost).sum ≤ 8 * totalOf F A

theorem PaidForest.perm {F : FreqTable} {A : List Byte} {next : Nat} {l l' : List Tree} (hl : l.Perm l')
    (h : PaidForest F A next l) : PaidForest F A next l' := by
  obtain ⟨b, hb, hcost⟩ := h.paid
  exact ⟨h.toForest.perm hl, b, weights_perm hl ▸ hb, (hl.map Tree.cost).sum_eq ▸ hcost⟩

theorem PaidForest.merge {F : FreqTable} {A : List Byte} {next : Nat} {x y : Tree} {rest : List Tree}
    (hA : A.length ≤ 256) (h : PaidForest F A next (x :: y :: rest)) (hx : ∀ z ∈ y :: rest, x.key ≤ z.key)
    (hy : ∀ z ∈ rest, y.key ≤ z.key) :
    PaidForest F A (next + 1) (.internal next (x.weight + y.weight) x y :: rest) := by
  obtain ⟨b, hb, hcost⟩ := h.paid
  have hw := h.merge_weight hA
  rw [weights_cons, weights_cons] at hb
  obtain ⟨b', rfl, hb'⟩ := hb.merge (le_of_mem_weights hx) (le_of_mem_weights hy)
  refine ⟨h.toForest.merge hA hx hy, b', ?budget, ?cost⟩
  case budget => rwa [weights_cons, weight_internal, hw]
  case cost =>
    simp only [List.map_cons, List.sum_cons, Tree.cost, hw] at hcost ⊢
    omega

theorem paidForest_leavesFrom (F : FreqTable) {A : List Byte} (hA : A.length ≤ 256) :
    PaidForest F A A.length (leavesFrom F 0 A) := by
  obtain ⟨hcard, hsum⟩ := weights_leavesFrom F 0 A
  refine ⟨forest_leavesFrom F A, 8 * totalOf F A, hsum ▸ budget_of_card_le (hcard.trans_le hA), ?_⟩
  rw [leavesFrom_cost, Nat.add_zero]

/-- The tree of an alphabet costs at most 8 times its frequencies (R121). -/
theorem buildTree_cost_le (F : FreqTable) {a : Byte} {as : List Byte} (hA : (a :: as).length ≤ 256) :
    (buildTree F a as).cost ≤ 8 * totalOf F (a :: as) := by
  obtain ⟨b, -, hcost⟩ := (buildTree_induct (P := PaidForest F (a :: as)) (fun _ _ _ hl h => h.perm hl)
    (fun _ _ _ _ h hx hy => h.merge hA hx hy) (paidForest_leavesFrom F hA)).paid
  rw [List.map_singleton, List.sum_singleton] at hcost
  exact (Nat.le_add_left _ _).trans hcost

/-! ### The coded length -/

/-- Where a leaf weighs the number of occurrences of its symbol in `B`, and every other node the sum of its children, the
codes below a node take its cost, and the bits of the path to it for each occurrence (R117). -/
theorem codedLength_visit {B : List Byte} {t : Tree}
    (occurrences : ∀ k s w, Tree.leaf k s w ∈ t.subtrees → w.toNat = B.count s)
    (sums : ∀ k w x y, Tree.internal k w x y ∈ t.subtrees → w.toNat = x.weight.toNat + y.weight.toNat) (p : Bits) :
    codedLength B (t.visit p) = t.cost + t.weight.toNat * p.length := by
  induction t generalizing p with
  | leaf k s w => simp [codedLength, Tree.visit, Tree.cost, Tree.weight, occurrences k s w List.mem_cons_self]
  | internal k w l r ihl ihr =>
    have hw := sums k w l r List.mem_cons_self
    simp only [Tree.subtrees, List.mem_cons, List.mem_append] at occurrences sums
    have hl := ihl (fun k s w h => occurrences k s w (.inr (.inl h))) (fun k w x y h => sums k w x y (.inr (.inl h)))
      (p ++ [false])
    have hr := ihr (fun k s w h => occurrences k s w (.inr (.inr h))) (fun k w x y h => sums k w x y (.inr (.inr h)))
      (p ++ [true])
    have happend : codedLength B (l.visit (p ++ [false]) ++ r.visit (p ++ [true])) =
        codedLength B (l.visit (p ++ [false])) + codedLength B (r.visit (p ++ [true])) := by
      rw [codedLength, List.map_append, List.sum_append]
      rfl
    simp only [List.length_append, List.length_singleton] at hl hr
    rw [Tree.visit, happend, hl, hr, Tree.cost, weight_internal, hw]
    ring

/-- A byte adds the bits of its code to the coded length (R117). -/
theorem codedLength_cons {tbl : CodeTable} (hnodup : (tbl.map Prod.fst).Nodup) {b : Byte} {c : Bits}
    (hc : codeOf b tbl = some c) (bs : List Byte) :
    codedLength (b :: bs) tbl = c.length + codedLength bs tbl := by
  induction tbl with
  | nil => cases hc
  | cons e tbl ih =>
    obtain ⟨s, d⟩ := e
    obtain ⟨hs, hnodup⟩ := List.nodup_cons.1 hnodup
    have hcons : ∀ B, codedLength B ((s, d) :: tbl) = B.count s * d.length + codedLength B tbl := fun B => rfl
    rw [codeOf] at hc
    rw [hcons, hcons]
    split at hc
    case isTrue h =>
      cases hc
      subst h
      have hrest : codedLength (s :: bs) tbl = codedLength bs tbl :=
        congrArg List.sum (List.map_congr_left fun e he => by
          have hne : s ≠ e.1 := fun h => hs (List.mem_map.2 ⟨e, he, h.symm⟩)
          rw [List.count_cons_of_ne hne])
      rw [hrest, List.count_cons_self]
      ring
    case isFalse h =>
      rw [ih hnodup hc, List.count_cons_of_ne (Ne.symm h)]
      ring

theorem translateBytes_length {tbl : CodeTable} (hnodup : (tbl.map Prod.fst).Nodup) {bs : List Byte} {bits : Bits}
    (h : translateBytes tbl bs = some bits) : bits.length = codedLength bs tbl := by
  induction bs generalizing bits with
  | nil =>
    cases h
    simp [codedLength]
  | cons b bs ih =>
    obtain ⟨c, rest, hc, hrest, rfl⟩ := translateBytes_cons h
    rw [List.length_append, ih hrest, codedLength_cons hnodup hc]

/-- No symbol of an alphabet stands twice in its code table (R115). -/
theorem codeGen_nodup {F : FreqTable} {a : Byte} {as : List Byte} (hA : alphabet F = a :: as) :
    ((codeGen (buildTree F a as)).map Prod.fst).Nodup := by
  rw [codeGen, visit_symbols]
  exact (buildTree_symbols F a as).nodup_iff.2 (hA ▸ alphabet_nodup F)

theorem codedLength_le {bs : List Byte} (hlen : bs.length < 2 ^ 32) {a : Byte} {as : List Byte}
    (halphabet : alphabet (freqAnalyze bs) = a :: as) :
    codedLength bs (codeGen (buildTree (freqAnalyze bs) a as)) ≤ 8 * bs.length := by
  have hA : (a :: as).length ≤ 256 := halphabet ▸ alphabet_length_le _
  have occurrences : ∀ k s w, Tree.leaf k s w ∈ (buildTree (freqAnalyze bs) a as).subtrees → w.toNat = bs.count s := by
    intro k s w h
    obtain ⟨i, hi, he⟩ := (leaf_mem_subtrees hA).1 h
    have hw := mkLeaf_weight (freqAnalyze bs) i (a :: as)[i]
    rw [← he, freqAnalyze_toNat hlen] at hw
    cases he
    exact hw
  have hcost := buildTree_cost_le (freqAnalyze bs) hA
  rw [totalOf, ← halphabet, sum_alphabet, freqSum_freqAnalyze hlen] at hcost
  rw [codeGen, codedLength_visit occurrences fun _ _ _ _ h => weight_eq_sum hA h]
  exact hcost

/-- Settles O46: the coded length is the cost of the tree. -/
theorem codedLengthIsAtMostEightBitsAByte : Obligations.CodedLengthIsAtMostEightBitsAByte := by
  intro bs a as bits hlen halphabet _ hbits
  have hle := codedLength_le hlen halphabet
  rw [← translateBytes_length (codeGen_nodup halphabet) hbits] at hle
  omega

end Sys2Proof.Machine
end

section
/-! PROOF. What ENCODE answers and leaves (41_encoder.md sections 1 and 7, 60_exceptions.md section 2). -/

namespace Sys2Proof.Machine

/-! ### What ENCODE answers -/

/-- The length of the container of an input (R78, R120). -/
def containerLength (B : List Byte) (a : Byte) (as : List Byte) : Nat :=
  6 + 5 * (a :: as).length +
    payloadLength (codedLength B (codeGen (buildTree (freqAnalyze B) a as)) / 8)
      (codedLength B (codeGen (buildTree (freqAnalyze B) a as)) % 8)

/-- What a successful ENCODE of `B` answers, for its alphabet and its translation (R120). -/
def encodeResult (B : List Byte) (a : Byte) (as : List Byte) (bits : Bits) : Result where
  out := writeContainer (a :: as) (freqAnalyze B) (bits.length / 8) (bits.length % 8) (packBits bits)
  n := BitVec.ofNat 8 (a :: as).length
  byteCount := BitVec.ofNat 32 (bits.length / 8)
  modulo := BitVec.ofNat 3 (bits.length % 8)
  freq := freqAnalyze B
  depth := depthTable (codeGen (buildTree (freqAnalyze B) a as))

/-- The translation of an input by its own code table (R117). -/
theorem exists_translation {B : List Byte} (hlen : B.length < 2 ^ 32) {a : Byte} {as : List Byte}
    (hA : alphabet (freqAnalyze B) = a :: as) :
    ∃ bits, translateBytes (codeGen (buildTree (freqAnalyze B) a as)) B = some bits ∧
      bits.length = codedLength B (codeGen (buildTree (freqAnalyze B) a as)) := by
  obtain ⟨bits, hbits⟩ := Option.isSome_iff_exists.1 (translateBytes_own_isSome hlen hA)
  exact ⟨bits, hbits, translateBytes_length (codeGen_nodup hA) hbits⟩

theorem encodeResult_out_length {B : List Byte} {a : Byte} {as : List Byte} {bits : Bits}
    (hbits : bits.length = codedLength B (codeGen (buildTree (freqAnalyze B) a as))) :
    (encodeResult B a as bits).out.length = containerLength B a as := by
  rw [encodeResult, writeContainer_length, packBits_length, hbits, containerLength]

/-- An input with an alphabet of up to 255 symbols is encoded, unless the container does not fit in OUT (R105). -/
theorem encodeBytes_of_translation {B : List Byte} {a : Byte} {as : List Byte} {bits : Bits}
    (hA : alphabet (freqAnalyze B) = a :: as) (hn : (a :: as).length ≤ 255) (hB : B.length ≠ 0)
    (hbits : translateBytes (codeGen (buildTree (freqAnalyze B) a as)) B = some bits) (cap : Nat) :
    encodeBytes cap B = if (encodeResult B a as bits).out.length > cap then .err .capacityExceeded
      else .ok (encodeResult B a as bits) := by
  have hne : (a :: as).length ≠ 256 := by omega
  simp only [encodeBytes, hB, if_false, hA, hne, hbits]
  rfl

/-- An input with every byte value has no representable alphabet size (R105). -/
theorem encodeBytes_of_all {B : List Byte} (hlen : B.length < 2 ^ 32) (hall : ∀ x : Byte, x ∈ B) (cap : Nat) :
    encodeBytes cap B = .err .unrepresentableAlphabetSize := by
  have hB : B.length ≠ 0 := (List.length_pos_of_mem (hall 0#8)).ne'
  have hfull : alphabet (freqAnalyze B) = allSymbols := by
    rw [alphabet_eq_filter, List.filter_eq_self]
    intro s _
    exact bne_iff_ne.2 (mem_alphabet.1 ((mem_alphabet_freqAnalyze hlen).2 (hall s)))
  have hn : (alphabet (freqAnalyze B)).length = 256 := hfull ▸ allSymbols_length
  simp only [encodeBytes, hB, if_false]
  split
  · rename_i hnil
    rw [hnil] at hn
    cases hn
  · rename_i a as hcons
    rw [hcons] at hn
    exact if_pos hn

/-! ### The completion step of ENCODE -/

theorem input_length (s : State) : s.input.length = s.inLen.toNat := bytes_length _ _

theorem input_length_lt (s : State) : s.input.length < 2 ^ 32 := (input_length s).trans_lt s.inLen.isLt

theorem runEncode_of_fits {s : State} (h : s.inLen.toNat ≤ s.caps.inCap) :
    runEncode s = encodeBytes s.caps.outCap s.input :=
  if_neg (Nat.not_lt.2 h)

/-- An input with an alphabet is not empty. -/
theorem length_ne_zero_of_alphabet {B : List Byte} {a : Byte} {as : List Byte}
    (hA : alphabet (freqAnalyze B) = a :: as) : B.length ≠ 0 := by
  intro h
  obtain rfl := List.length_eq_zero_iff.1 h
  have ha : a ∈ alphabet (freqAnalyze []) := hA ▸ List.mem_cons_self
  exact List.not_mem_nil ((mem_alphabet_freqAnalyze (by decide)).1 ha)

/-- Settles O37. -/
theorem encodeReportsTheFirstErrorInOrder : Obligations.EncodeReportsTheFirstErrorInOrder := by
  intro s
  refine ⟨fun hlong => if_pos hlong, fun hfits hempty => ?empty, fun hfits hall => ?allSymbols,
    fun a as hfits hA hn hcap => ?capacity⟩
  case empty => rw [runEncode_of_fits hfits, encodeBytes, if_pos ((input_length s).trans hempty)]
  case allSymbols => rw [runEncode_of_fits hfits, encodeBytes_of_all (input_length_lt s) hall]
  case capacity =>
    obtain ⟨bits, hbits, hlength⟩ := exists_translation (input_length_lt s) hA
    rw [runEncode_of_fits hfits, encodeBytes_of_translation hA hn (length_ne_zero_of_alphabet hA) hbits,
      encodeResult_out_length hlength]
    exact if_pos hcap

theorem completionStep_of_ok {s : State} {r : Result} (h : runCommand s = .ok r) :
    completionStep s = .next (finishCommand r s) := by
  rw [completionStep, h]

/-- Settles O36: the completion step writes the result of ENCODE, whose fields all fit their registers. -/
theorem encodeLeavesTheContainerAndTheTables : Obligations.EncodeLeavesTheContainerAndTheTables := by
  intro s a as hcaps hhazard hq hpos hfits hA hn F tbl L hcap
  obtain ⟨bits, hbits, hlength⟩ := exists_translation (input_length_lt s) hA
  have hout := encodeResult_out_length (a := a) (as := as) hlength
  have hcapLt : s.caps.outCap < 2 ^ 32 := by
    obtain ⟨-, -, -, h⟩ := hcaps
    omega
  have hrun : runEncode s = .ok (encodeResult s.input a as bits) := by
    rw [runEncode_of_fits hfits, encodeBytes_of_translation hA hn (length_ne_zero_of_alphabet hA) hbits, hout]
    exact if_neg (Nat.not_lt.2 hcap)
  have hfield : containerLength s.input a as < 2 ^ 32 := lt_of_le_of_lt hcap hcapLt
  have houtLen : (BitVec.ofNat 32 (encodeResult s.input a as bits).out.length).toNat =
      containerLength s.input a as := by
    rw [hout, BitVec.toNat_ofNat, Nat.mod_eq_of_lt hfield]
  have hbyteCount : L / 8 < 2 ^ 32 :=
    lt_of_le_of_lt ((Nat.le_add_right _ _).trans (Nat.le_add_left _ _)) hfield
  refine ⟨{ s with cmdl := .encode, err := none, phase := .busy }, finishCommand (encodeResult s.input a as bits) _, bits,
    exec_encode_quiescent hq, completionStep_of_ok hrun, hbits, hlength,
    statusWord_of (p := .done) (e := none) rfl rfl, houtLen, ?output, fun k hk => ?beyond, ?symCount, ?byteCount, ?modulo,
    freqAnalyze_toNat (input_length_lt s), ?codeLen, rfl, rfl, rfl, rfl, hhazard, rfl, rfl, rfl, rfl⟩
  case output =>
    rw [finishCommand_output, houtLen, ← hout, List.take_length, encodeResult, hlength]
  case beyond =>
    refine read_storePrefix_ge _ ?_
    rwa [finishCommand_outLen, houtLen, ← hout] at hk
  case symCount => exact (BitVec.toNat_ofNat _ _).trans (Nat.mod_eq_of_lt (Nat.lt_succ_of_le hn))
  case byteCount =>
    rw [finishCommand_byteCount, encodeResult, hlength, BitVec.toNat_ofNat, Nat.mod_eq_of_lt hbyteCount]
  case modulo =>
    rw [finishCommand_modulo, encodeResult, hlength, BitVec.toNat_ofNat, Nat.mod_mod]
  case codeLen =>
    exact depthTable_toNat fun x c hc => Nat.lt_succ_of_le ((codeOf_length_le hc).trans (Nat.le_of_succ_le hn))

end Sys2Proof.Machine
end

section
/-! PROOF. What ReadTable refuses (42_decoder.md section 2), and that it refuses a container without its last byte
(42_decoder.md section 6). -/

namespace Sys2Proof.Machine

/-! ### Reading the pairs -/

/-- R132 (d), (e): what is wrong with the first `n` pairs of the bytes for a reader that has the table `F`: a frequency
of 0, a symbol that a pair before it has, or a symbol that is in the table already. -/
def BadPairs (n : Nat) (body : List Byte) (F : FreqTable) : Prop :=
  (∃ i, i < n ∧ wordAt body (1 + 5 * i) = 0#32) ∨
  (∃ j, j < n ∧ ∃ i, i < j ∧ byteAt body (5 * i) = byteAt body (5 * j)) ∨
  (∃ i, i < n ∧ FreqTable.at F (byteAt body (5 * i)) ≠ 0#32)

theorem byteAt_pair_succ (s b0 b1 b2 b3 : Byte) (rest : List Byte) (i : Nat) :
    byteAt (s :: b0 :: b1 :: b2 :: b3 :: rest) (5 * (i + 1)) = byteAt rest (5 * i) := rfl

theorem wordAt_pair_succ (s b0 b1 b2 b3 : Byte) (rest : List Byte) (i : Nat) :
    wordAt (s :: b0 :: b1 :: b2 :: b3 :: rest) (1 + 5 * (i + 1)) = wordAt rest (1 + 5 * i) := by
  rw [Nat.add_comm 1, Nat.add_comm 1]
  rfl

/-- The pairs from the first one on are bad if the first one is, or if the others are for a reader that has put the
first one into its table. -/
theorem badPairs_succ (s b0 b1 b2 b3 : Byte) (rest : List Byte) (n : Nat) (F : FreqTable) :
    BadPairs (n + 1) (s :: b0 :: b1 :: b2 :: b3 :: rest) F ↔
      (rdU32le b0 b1 b2 b3 = 0#32 ∨ FreqTable.at F s ≠ 0#32) ∨
        BadPairs n rest (FreqTable.put F s (rdU32le b0 b1 b2 b3)) := by
  have hsym : byteAt (s :: b0 :: b1 :: b2 :: b3 :: rest) (5 * 0) = s := rfl
  have hfreq : wordAt (s :: b0 :: b1 :: b2 :: b3 :: rest) (1 + 5 * 0) = rdU32le b0 b1 b2 b3 := rfl
  simp only [BadPairs, Nat.exists_lt_succ_left, hsym, hfreq, byteAt_pair_succ, wordAt_pair_succ, put_at]
  by_cases hf : rdU32le b0 b1 b2 b3 = 0#32
  case pos => simp [hf]
  have hrepeat (x : Byte) : (if s = x then rdU32le b0 b1 b2 b3 else FreqTable.at F x) ≠ 0#32 ↔
      s = x ∨ FreqTable.at F x ≠ 0#32 := by
    by_cases hx : s = x <;> simp [hx, hf]
  simp only [hrepeat, Nat.not_lt_zero, false_and, exists_false, false_or, and_or_left, exists_or]
  exact iff_of_eq (by ac_rfl)

/-- Where the bytes suffice, reading pairs fails exactly for bad ones (R131, R132). -/
theorem readPairs_eq_none_iff {n : Nat} {body : List Byte} {F : FreqTable} (h : 5 * n ≤ body.length) :
    readPairs n body F = none ↔ BadPairs n body F := by
  fun_induction readPairs n body F with
  | case1 => simp [BadPairs]
  | case2 n s b0 b1 b2 b3 rest F f hc => exact iff_of_true rfl ((badPairs_succ ..).2 (.inl hc))
  | case3 n s b0 b1 b2 b3 rest F f hc ih =>
    have hrest : 5 * n ≤ rest.length := by
      simp only [List.length_cons] at h
      omega
    rw [ih hrest, badPairs_succ, or_iff_right hc]
  | case4 n body F hshort =>
    match body, h with
    | s :: b0 :: b1 :: b2 :: b3 :: rest, _ => exact absurd rfl (hshort s b0 b1 b2 b3 rest)

/-! ### The checks of ReadTable -/

theorem countField_cons (n : Byte) (body : List Byte) : countField (n :: body) = n.toNat := rfl

/-- R132 (d), (e) on the pairs of a container: ReadTable begins with an empty table. -/
theorem badPairs_container (n : Byte) (body : List Byte) :
    BadPairs n.toNat body (Vector.replicate 256 0#32) ↔
      (∃ i, i < n.toNat ∧ pairFreq (n :: body) i = 0#32) ∨
      ∃ j, j < n.toNat ∧ ∃ i, i < j ∧ pairSymbol (n :: body) i = pairSymbol (n :: body) j := by
  simp only [BadPairs, replicate_at, pairFreq_cons, pairSymbol_cons, ne_eq, not_true_eq_false, and_false, exists_false,
    or_false]

/-- Past the pairs ReadTable refuses a modulo above 7 and a length that the fields do not declare (R132 (f), (g)). -/
theorem readTable_eq_none_of_pairs {n : Byte} {body rest : List Byte} {F : FreqTable} (hn : n ≠ 0#8)
    (hlen : ¬ (n :: body).length < 6 + 5 * n.toNat)
    (hpairs : readPairs n.toNat body (Vector.replicate 256 0#32) = some (F, rest)) :
    readTable (n :: body) = none ↔ (moduloField (n :: body)).toNat > 7 ∨
      (n :: body).length ≠ 6 + 5 * n.toNat +
        payloadLength (byteCountField (n :: body)).toNat (moduloField (n :: body)).toNat := by
  obtain ⟨hrest, -⟩ := readPairs_some hpairs
  have hroom : 5 ≤ rest.length := by
    rw [hrest, List.length_drop]
    simp only [List.length_cons] at hlen
    omega
  match rest, hroom with
  | c0 :: c1 :: c2 :: c3 :: md :: payload, _ =>
    have hdrop : (n :: body).drop (1 + 5 * n.toNat) = c0 :: c1 :: c2 :: c3 :: md :: payload := by
      rw [hrest, Nat.add_comm, List.drop_succ_cons]
    obtain ⟨hbyteCount, hmodulo, -⟩ := fields_of_drop_pairs (C := n :: body) hdrop
    rw [hbyteCount, hmodulo]
    simp only [readTable, if_neg hn, if_neg hlen, hpairs]
    by_cases hmd : md.toNat > 7
    · simp [hmd]
    · simp [hmd]

/-- Settles O50, check by check. -/
theorem readTableRefusesExactlyTheIllegalContainers : Obligations.ReadTableRefusesExactlyTheIllegalContainers := by
  intro C
  match C with
  | [] => exact iff_of_true rfl (.inl rfl)
  | n :: body =>
    by_cases hn : n = 0#8
    case pos =>
      subst hn
      exact iff_of_true rfl (.inr (.inl rfl))
    have hcount : n.toNat ≠ 0 := fun h => hn (BitVec.eq_of_toNat_eq h)
    by_cases hlen : (n :: body).length < 6 + 5 * n.toNat
    case pos => exact iff_of_true (by rw [readTable, if_neg hn, if_pos hlen]) (.inr (.inr (.inl hlen)))
    have hroom : 5 * n.toNat ≤ body.length := by
      simp only [List.length_cons] at hlen
      omega
    have hbad := (readPairs_eq_none_iff hroom).trans (badPairs_container n body)
    rw [IllegalContainer, countField_cons, or_iff_right (List.length_pos_of_mem List.mem_cons_self).ne',
      or_iff_right hcount, or_iff_right hlen, ← or_assoc, ← hbad]
    cases hpairs : readPairs n.toNat body (Vector.replicate 256 0#32) with
    | none => exact iff_of_true (by simp only [readTable, if_neg hn, if_neg hlen, hpairs]) (.inl rfl)
    | some p => rw [readTable_eq_none_of_pairs hn hlen hpairs, or_iff_right (Option.some_ne_none p)]

/-! ### A container without its last byte -/

theorem byteAt_dropLast {C : List Byte} {o : Nat} (h : o + 1 < C.length) : byteAt C.dropLast o = byteAt C o := by
  rw [byteAt, byteAt, List.getD_eq_getElem?_getD, List.getD_eq_getElem?_getD, List.getElem?_dropLast,
    if_pos (Nat.lt_sub_of_add_lt h)]

/-- The length of a legal container is the one that its fields declare (R132). -/
theorem length_of_legal {C : List Byte} (h : ¬ IllegalContainer C) :
    C.length = 6 + 5 * countField C + payloadLength (byteCountField C).toNat (moduloField C).toNat := by
  simp only [IllegalContainer, not_or, not_not] at h
  obtain ⟨-, -, -, -, -, -, hlength⟩ := h
  exact hlength

/-- A legal container without its last byte is illegal: it is too short, or declares one byte more than it has (R132 (c),
(g)). -/
theorem illegalContainer_dropLast {C : List Byte} (h : ¬ IllegalContainer C) : IllegalContainer C.dropLast := by
  by_contra hlast
  have hC := length_of_legal h
  have hD := length_of_legal hlast
  have hlen := List.length_dropLast (xs := C)
  have hcount : countField C.dropLast = countField C := congrArg BitVec.toNat (byteAt_dropLast (by omega))
  have hfields : ∀ o, o < 6 + 5 * countField C → byteAt C.dropLast o = byteAt C o := fun o ho =>
    byteAt_dropLast (by omega)
  have hbyteCount : byteCountField C.dropLast = byteCountField C := by
    simp only [byteCountField, wordAt, hcount]
    rw [hfields _ (by omega), hfields _ (by omega), hfields _ (by omega), hfields _ (by omega)]
  have hmodulo : moduloField C.dropLast = moduloField C := by
    rw [moduloField, hcount, hfields _ (by omega), moduloField]
  rw [hcount, hbyteCount, hmodulo] at hD
  omega

end Sys2Proof.Machine
end

section
/-! PROOF. What DECODE answers and leaves (42_decoder.md sections 1 and 5, 60_exceptions.md section 2), and where its
walk can fail (42_decoder.md section 6). -/

namespace Sys2Proof.Machine

/-! ### What DECODE answers -/

/-- The bytes `S` that a container holds, for its alphabet `a :: as`: the single symbol, or what the walk emits, if the
count agrees (R135 to R137). -/
def Table.Holds (t : Table) (a : Byte) (as S : List Byte) : Prop :=
  (t.n = 1#8 ∧ t.bc = 0#32 ∧ t.md = 0#8 ∧ S = List.replicate (FreqTable.at t.F a).toNat a) ∨
  (t.n ≠ 1#8 ∧ walkFrom (buildTree t.F a as) (buildTree t.F a as)
    (unpackBits t.payload t.bc.toNat t.md.toNat) = some S ∧ S.length = freqSum t.F)

/-- What DECODE does with a container that ReadTable accepts (R130). -/
theorem decodeBytes_of_table {C : List Byte} {t : Table} (ht : readTable C = some t) {a : Byte} {as : List Byte}
    (hA : alphabet t.F = a :: as) (cap : Nat) :
    decodeBytes cap C = if t.n = 1#8 then emitSingle cap t a (buildTree t.F a as)
      else emitWalk cap t (buildTree t.F a as) := by
  simp only [decodeBytes, ht, hA]

/-- The bytes that a container holds are decoded, unless they do not fit in OUT (R130, R135 to R137). -/
theorem decodeBytes_of_holds {C : List Byte} {t : Table} (ht : readTable C = some t) {a : Byte} {as S : List Byte}
    (hA : alphabet t.F = a :: as) (hS : t.Holds a as S) (cap : Nat) :
    decodeBytes cap C = if S.length > cap then .err .capacityExceeded
      else .ok (decodeResult t (buildTree t.F a as) S) := by
  rw [decodeBytes_of_table ht hA]
  obtain ⟨hn, hbc, hmd, rfl⟩ | ⟨hn, hwalk, hcount⟩ := hS
  case inl => simp [hn, emitSingle, hbc, hmd]
  case inr => simp [hn, emitWalk, hwalk, hcount]

theorem countField_of_readTable {C : List Byte} {t : Table} (ht : readTable C = some t) : t.n.toNat = countField C := by
  obtain ⟨hn, -⟩ := readTableReadsTheFields C t ht
  exact hn

/-- What ReadTable reads from a container of one symbol: that symbol with the frequency of its pair (R131, R135). -/
theorem readTable_of_single {C : List Byte} (hlegal : ¬ IllegalContainer C) (hcount : countField C = 1) :
    ∃ t a, readTable C = some t ∧ t.n = 1#8 ∧ alphabet t.F = [a] ∧ t.bc = byteCountField C ∧ t.md = moduloField C ∧
      FreqTable.at t.F a = pairFreq C 0 := by
  obtain ⟨t, ht⟩ := Option.ne_none_iff_exists'.1 (hlegal ∘ (readTableRefusesExactlyTheIllegalContainers C).1)
  obtain ⟨hn, hbc, hmd, -, -, hpairs, -, halphabet⟩ := readTableReadsTheFields C t ht
  rw [hcount] at hn hpairs halphabet
  obtain ⟨a, ha⟩ := List.length_eq_one_iff.1 halphabet
  have hfirst := hpairs 0 Nat.one_pos
  have hfreq : pairFreq C 0 ≠ 0#32 := fun h =>
    hlegal (.inr (.inr (.inr (.inl ⟨0, hcount ▸ Nat.one_pos, h⟩))))
  have hsym : pairSymbol C 0 = a := by
    rw [← List.mem_singleton, ← ha, mem_alphabet, hfirst]
    exact hfreq
  exact ⟨t, a, ht, BitVec.eq_of_toNat_eq hn, ha, hbc, hmd, hsym ▸ hfirst⟩

theorem runDecode_of_fits {s : State} (h : s.inLen.toNat ≤ s.caps.inCap) :
    runDecode s = decodeBytes s.caps.outCap s.input :=
  if_neg (Nat.not_lt.2 h)

/-- Settles O54, by the end that each case of the checks comes to. -/
theorem decodeReportsTheFirstErrorInOrder : Obligations.DecodeReportsTheFirstErrorInOrder := by
  intro s
  refine ⟨fun hlong => if_pos hlong, fun hfits hillegal => ?illegal, fun hfits hlegal hcount => ?single,
    fun t a as hfits ht hcount hA => ?walk⟩
  case illegal =>
    rw [runDecode_of_fits hfits, decodeBytes, (readTableRefusesExactlyTheIllegalContainers _).2 hillegal]
  case single =>
    obtain ⟨t, a, ht, hn, hA, hbc, hmd, hfreq⟩ := readTable_of_single hlegal hcount
    rw [runDecode_of_fits hfits, decodeBytes_of_table ht hA, if_pos hn, emitSingle, hbc, hmd, hfreq]
    refine ⟨fun hpayload => if_pos hpayload, fun hbc hmd hcap => ?_⟩
    exact (if_neg (not_or.2 ⟨not_not.2 hbc, not_not.2 hmd⟩)).trans (if_pos hcap)
  case walk =>
    have hn : t.n ≠ 1#8 := fun h => hcount ((countField_of_readTable ht).symm.trans (congrArg BitVec.toNat h))
    rw [runDecode_of_fits hfits, decodeBytes_of_table ht hA, if_neg hn, emitWalk]
    refine ⟨fun hwalk => ?noPath, fun S hwalk => ⟨fun hne => ?wrongCount, fun heq hcap => ?capacity⟩⟩
    case noPath => rw [hwalk]
    case wrongCount =>
      rw [hwalk]
      exact if_pos hne
    case capacity =>
      rw [hwalk]
      exact (if_neg (not_not.2 heq)).trans (if_pos hcap)

/-! ### The completion step of DECODE -/

/-- A result whose length fits OUT_LEN stands in OUT whole, and OUT_LEN is its length (R28, R98). -/
theorem finishCommand_output_of_fits {r : Result} (h : r.out.length < 2 ^ 32) (s : State) :
    (finishCommand r s).outLen.toNat = r.out.length ∧ (finishCommand r s).output = r.out := by
  have hlength : (BitVec.ofNat 32 r.out.length).toNat = r.out.length :=
    (BitVec.toNat_ofNat _ _).trans (Nat.mod_eq_of_lt h)
  exact ⟨hlength, by rw [finishCommand_output, hlength, List.take_length]⟩

/-- Settles O53: the completion step writes the result of DECODE, whose fields all fit their registers. -/
theorem decodeLeavesTheBytesAndTheTables : Obligations.DecodeLeavesTheBytesAndTheTables := by
  intro s t a as S hcaps hhazard hq hfits ht hA hS hcap
  obtain ⟨-, -, -, hcapLt⟩ := hcaps
  obtain ⟨-, -, -, hmd, -⟩ := readTableReadsTheFields _ _ ht
  have hrun : runDecode s = .ok (decodeResult t (buildTree t.F a as) S) := by
    rw [runDecode_of_fits hfits, decodeBytes_of_holds ht hA hS]
    exact if_neg (Nat.not_lt.2 hcap)
  obtain ⟨houtLen, houtput⟩ := finishCommand_output_of_fits (r := decodeResult t (buildTree t.F a as) S)
    (hcap.trans_lt (Nat.lt_of_le_pred (by decide) hcapLt)) { s with cmdl := .decode, err := none, phase := .busy }
  have hle := alphabet_length_le t.F
  rw [hA] at hle
  refine ⟨{ s with cmdl := .decode, err := none, phase := .busy },
    finishCommand (decodeResult t (buildTree t.F a as) S) _, exec_decode_quiescent hq, completionStep_of_ok hrun,
    statusWord_of (p := .done) (e := none) rfl rfl, houtLen, houtput, fun k hk => read_storePrefix_ge _ hk, rfl, rfl,
    ?modulo, rfl, ?codeLen, rfl, rfl, rfl, rfl, hhazard, rfl, rfl, rfl, rfl⟩
  case modulo =>
    rw [finishCommand_modulo, decodeResult, BitVec.truncate_eq_setWidth, BitVec.toNat_setWidth,
      Nat.mod_eq_of_lt (Nat.lt_succ_of_le hmd)]
  case codeLen => exact depthTable_toNat fun x c hc => (codeOf_length_le hc).trans_lt hle

/-! ### The walk fails at its end only -/

/-- Below every node there is a leaf. -/
theorem exists_follow (t : Tree) : ∃ c x, t.follow c = some x := by
  induction t with
  | leaf i s w => exact ⟨[], s, rfl⟩
  | internal i w l r ihl _ =>
    obtain ⟨c, x, h⟩ := ihl
    exact ⟨false :: c, x, h⟩

/-- A bit that leads to a leaf emits its symbol, and the walk goes on from the root (R136). -/
theorem walkFrom_cons_of_leaf {root l r : Tree} {b : Bool} {k : Nat} {x : Byte} {v : Weight}
    (h : (if b then r else l) = .leaf k x v) (i : Nat) (w : Weight) (bs : Bits) :
    walkFrom root (.internal i w l r) (b :: bs) = (walkFrom root root bs).map (x :: ·) := by
  rw [walkFrom, h]
  cases walkFrom root root bs <;> rfl

/-- A bit that leads to an internal node moves the walk there (R136). -/
theorem walkFrom_cons_of_internal {root l r l' r' : Tree} {b : Bool} {k : Nat} {v : Weight}
    (h : (if b then r else l) = .internal k v l' r') (i : Nat) (w : Weight) (bs : Bits) :
    walkFrom root (.internal i w l r) (b :: bs) = walkFrom root (.internal k v l' r') bs := by
  rw [walkFrom, h]

/-- From an internal node every bit string can be extended to one that the walk reads to its end (R140). -/
theorem exists_walk_extension {root : Tree} (hroot : ∀ i s w, root ≠ .leaf i s w) {cur : Tree}
    (hcur : ∀ i s w, cur ≠ .leaf i s w) (bits : Bits) : ∃ more S, walkFrom root cur (bits ++ more) = some S := by
  induction bits generalizing cur with
  | nil =>
    obtain ⟨c, x, h⟩ := exists_follow cur
    have hwalk := walkFrom_follow root cur hcur c [] x h
    rw [List.append_nil, walkFrom_root_nil] at hwalk
    exact ⟨c, [x], hwalk⟩
  | cons b bs ih =>
    cases cur with
    | leaf i s w => exact absurd rfl (hcur i s w)
    | internal i w l r =>
      cases hchild : (if b then r else l) with
      | leaf k x v =>
        obtain ⟨more, S, h⟩ := ih hroot
        exact ⟨more, x :: S, by rw [List.cons_append, walkFrom_cons_of_leaf hchild, h]; rfl⟩
      | internal k v l' r' =>
        obtain ⟨more, S, h⟩ := ih (cur := .internal k v l' r') nofun
        exact ⟨more, S, by rw [List.cons_append, walkFrom_cons_of_internal hchild, h]⟩

/-- Settles O56: with two symbols or more the root is an internal node. -/
theorem walkCanFailOnlyAtItsEnd : Obligations.WalkCanFailOnlyAtItsEnd := fun _ _ _ bits has =>
  exists_walk_extension (buildTree_ne_leaf has) (buildTree_ne_leaf has) bits

end Sys2Proof.Machine
end

section
/-! PROOF. DECODE undoes ENCODE (42_decoder.md section 6). -/

namespace Sys2Proof.Machine

/-! ### The container that ENCODE wrote -/

/-- What a successful ENCODE went through: an alphabet of up to 255 symbols, and a translation (R105). -/
theorem encodeBytes_eq_ok {cap : Nat} {B : List Byte} {r : Result} (h : encodeBytes cap B = .ok r) :
    ∃ a as bits, alphabet (freqAnalyze B) = a :: as ∧ (a :: as).length ≤ 255 ∧
      translateBytes (codeGen (buildTree (freqAnalyze B) a as)) B = some bits ∧ r = encodeResult B a as bits := by
  simp only [encodeBytes] at h
  split at h
  · cases h
  split at h
  · cases h
  rename_i a as hA
  have hle := alphabet_length_le (freqAnalyze B)
  rw [hA] at hle
  split at h
  · cases h
  rename_i hn
  split at h
  · cases h
  rename_i bits hbits
  split at h
  · cases h
  cases h
  exact ⟨a, as, bits, hA, by omega, hbits, rfl⟩

/-- What ReadTable reads from the container of `B` (R119, R131). -/
def encodedTable (B : List Byte) (a : Byte) (as : List Byte) (bits : Bits) : Table where
  n := BitVec.ofNat 8 (a :: as).length
  F := freqAnalyze B
  bc := BitVec.ofNat 32 (bits.length / 8)
  md := BitVec.ofNat 8 (bits.length % 8)
  payload := packBits bits

section
variable {B : List Byte} {a : Byte} {as : List Byte} {bits : Bits}

theorem readTable_encodeResult_out (hA : alphabet (freqAnalyze B) = a :: as) (hn : (a :: as).length ≤ 255)
    (hbc : bits.length / 8 < 2 ^ 32) :
    readTable (encodeResult B a as bits).out = some (encodedTable B a as bits) := by
  have hread := readTableOfWriteContainerIsTheTable (freqAnalyze B) (bits.length / 8) (bits.length % 8) (packBits bits)
  rw [hA] at hread
  exact hread (Nat.succ_pos _) hn hbc (Nat.le_of_lt_succ (Nat.mod_lt _ (by decide))) (packBits_length bits)

/-- The container of `B` holds `B`: by the count of its single symbol, or by the walk over its codes (R135, R136). -/
theorem encodedTable_holds (hlen : B.length < 2 ^ 32) (hA : alphabet (freqAnalyze B) = a :: as)
    (hn : (a :: as).length ≤ 255) (hbits : translateBytes (codeGen (buildTree (freqAnalyze B) a as)) B = some bits)
    (hbc : bits.length / 8 < 2 ^ 32) : (encodedTable B a as bits).Holds a as B := by
  rcases eq_or_ne as [] with rfl | has
  case inl =>
    have hlength := translateBytes_length (codeGen_nodup hA) hbits
    have hempty : bits = [] := List.length_eq_zero_iff.1 hlength
    have hall : ∀ b ∈ B, b = a := fun b hb => List.mem_singleton.1 (hA ▸ (mem_alphabet_freqAnalyze hlen).2 hb)
    have hcount : (FreqTable.at (freqAnalyze B) a).toNat = B.length := by
      rw [freqAnalyze_toNat hlen, List.count_eq_length.2 fun b hb => (hall b hb).symm]
    subst hempty
    exact .inl ⟨rfl, rfl, rfl, hcount ▸ List.eq_replicate_iff.2 ⟨rfl, hall⟩⟩
  case inr =>
    have hnum : (encodedTable B a as bits).n ≠ 1#8 := fun h => by
      have hone := congrArg BitVec.toNat h
      rw [encodedTable, BitVec.toNat_ofNat, Nat.mod_eq_of_lt (Nat.lt_succ_of_le hn)] at hone
      exact has (List.length_eq_zero_iff.1 (Nat.succ.inj hone))
    have hunpack : unpackBits (packBits bits) (BitVec.ofNat 32 (bits.length / 8)).toNat
        (BitVec.ofNat 8 (bits.length % 8)).toNat = bits := by
      rw [BitVec.toNat_ofNat, Nat.mod_eq_of_lt hbc, BitVec.toNat_ofNat, Nat.mod_eq_of_lt (by omega)]
      exact unpackOfPackIsTheBitString bits
    refine .inr ⟨hnum, ?walk, (freqSum_freqAnalyze hlen).symm⟩
    case walk =>
      rw [encodedTable, hunpack]
      exact walkFrom_translateBytes (buildTree_ne_leaf has) hbits

/-- DECODE of the container of `B` answers what ENCODE answered, with `B` in the place of the container (R139). -/
theorem decodeBytes_encodeResult_out (hlen : B.length < 2 ^ 32) (hA : alphabet (freqAnalyze B) = a :: as)
    (hn : (a :: as).length ≤ 255) (hbits : translateBytes (codeGen (buildTree (freqAnalyze B) a as)) B = some bits)
    {cap : Nat} (hcap : B.length ≤ cap) :
    decodeBytes cap (encodeResult B a as bits).out = .ok { encodeResult B a as bits with out := B } := by
  obtain ⟨-, -, hbc⟩ := codedLengthIsAtMostEightBitsAByte B a as bits hlen hA hn hbits
  rw [decodeBytes_of_holds (readTable_encodeResult_out hA hn hbc) hA (encodedTable_holds hlen hA hn hbits hbc),
    if_neg (Nat.not_lt.2 hcap)]
  have hmodulo : (BitVec.ofNat 8 (bits.length % 8)).truncate 3 = BitVec.ofNat 3 (bits.length % 8) := by
    apply BitVec.eq_of_toNat_eq
    simp
  rw [decodeResult, encodedTable, hmodulo]
  rfl

end

/-- DECODE of a container that ENCODE wrote answers what ENCODE answered, with the input in the place of the container
(R139). -/
theorem decodeBytes_of_encodeBytes {cap cap' : Nat} {B : List Byte} {r : Result} (hlen : B.length < 2 ^ 32)
    (h : encodeBytes cap B = .ok r) (hcap : B.length ≤ cap') :
    decodeBytes cap' r.out = .ok { r with out := B } := by
  obtain ⟨a, as, bits, hA, hn, hbits, rfl⟩ := encodeBytes_eq_ok h
  exact decodeBytes_encodeResult_out hlen hA hn hbits hcap

/-- A non-empty input of up to 255 distinct bytes is encoded, unless its container does not fit in OUT (R105). -/
theorem exists_encodeBytes {cap : Nat} {B : List Byte} (hpos : 1 ≤ B.length) (hlen : B.length < 2 ^ 32)
    (hdistinct : B.dedup.length ≤ 255) (hfits : encodeBytes cap B ≠ .err .capacityExceeded) :
    ∃ r, encodeBytes cap B = .ok r := by
  have hdedup : (alphabet (freqAnalyze B)).Perm B.dedup :=
    (List.perm_ext_iff_of_nodup (alphabet_nodup _) B.nodup_dedup).2 fun x => by
      rw [mem_alphabet_freqAnalyze hlen, List.mem_dedup]
  cases hA : alphabet (freqAnalyze B) with
  | nil =>
    have hmem := (mem_alphabet_freqAnalyze hlen).2 (List.getElem_mem hpos)
    rw [hA] at hmem
    cases hmem
  | cons a as =>
    have hn : (a :: as).length ≤ 255 := hA ▸ hdedup.length_eq.trans_le hdistinct
    obtain ⟨bits, hbits, -⟩ := exists_translation hlen hA
    have hencode := encodeBytes_of_translation hA hn (Nat.ne_of_gt hpos) hbits cap
    split at hencode
    · exact absurd hencode hfits
    · exact ⟨_, hencode⟩

/-- Settles O57. -/
theorem decodeOfEncodeIsTheBuffer : Obligations.DecodeOfEncodeIsTheBuffer := by
  intro cap B _ hpos hlen hdistinct hcap hfits
  obtain ⟨r, hr⟩ := exists_encodeBytes hpos hlen hdistinct hfits
  exact ⟨r, { r with out := B }, hr, decodeBytes_of_encodeBytes hlen hr hcap, rfl, rfl, rfl, rfl, rfl, rfl⟩

/-! ### On the machine -/

theorem runCommand_of_encode {s : State} (h : s.cmdl = .encode) : runCommand s = runEncode s := by rw [runCommand, h]

theorem runCommand_of_decode {s : State} (h : s.cmdl = .decode) : runCommand s = runDecode s := by rw [runCommand, h]

theorem encodeBytes_of_runEncode {s : State} {r : Result} (h : runEncode s = .ok r) :
    encodeBytes s.caps.outCap s.input = .ok r := by
  by_cases hfits : s.inLen.toNat ≤ s.caps.inCap
  · rwa [runEncode_of_fits hfits] at h
  · rw [runEncode, if_pos (Nat.not_le.1 hfits)] at h
    cases h

/-- Settles O58: the two completion steps write the results of ENCODE and of DECODE, which differ in the bytes alone. -/
theorem decodeOfEncodedOutputRestoresTheInput : Obligations.DecodeOfEncodedOutputRestoresTheInput := by
  intro s t s' hcaps _ _ hcmd hstep hdone houtFits hinFits hcaps' _ _ hcmd' hlen' hin'
  obtain ⟨-, -, -, hcapLt⟩ := hcaps
  obtain ⟨r, hr, rfl⟩ | ⟨e, -, rfl⟩ := completionStep_cases hstep
  case inr => cases hdone
  have hout := runCommand_out_le hr
  obtain ⟨-, houtput⟩ := finishCommand_output_of_fits (r := r) (by omega) s
  have hencode : encodeBytes s.caps.outCap s.input = .ok r := by
    rw [runCommand_of_encode hcmd] at hr
    exact encodeBytes_of_runEncode hr
  have hdecode : runCommand s' = .ok { r with out := s.input } := by
    have hfits : s'.inLen.toNat ≤ s'.caps.inCap := by rwa [hlen', hcaps']
    rw [runCommand_of_decode hcmd', runDecode_of_fits hfits, hin', houtput, hcaps']
    exact decodeBytes_of_encodeBytes (input_length_lt s) hencode ((input_length s).trans_le hinFits)
  obtain ⟨hlength, hrestored⟩ := finishCommand_output_of_fits (r := { r with out := s.input }) (input_length_lt s) s'
  refine ⟨finishCommand { r with out := s.input } s', completionStep_of_ok hdecode, rfl,
    BitVec.eq_of_toNat_eq (hlength.trans (input_length s)), hrestored, rfl, rfl, rfl, rfl, rfl⟩

/-! ### Without the last byte -/

/-- Settles O59: ReadTable accepts the container that was written, and so refuses it without its last byte. -/
theorem truncatedContainerIsMalformed : Obligations.TruncatedContainerIsMalformed := by
  intro cap cap' B r hcap h
  have hout := encodeBytes_out_le h
  obtain ⟨a, as, bits, hA, hn, -, rfl⟩ := encodeBytes_eq_ok h
  have hbc : bits.length / 8 < 2 ^ 32 := by
    rw [encodeResult, writeContainer_length, packBits_length, payloadLength] at hout
    omega
  have hlegal : ¬ IllegalContainer (encodeResult B a as bits).out := fun hillegal => by
    rw [← readTableRefusesExactlyTheIllegalContainers, readTable_encodeResult_out hA hn hbc] at hillegal
    cases hillegal
  rw [decodeBytes, (readTableRefusesExactlyTheIllegalContainers _).2 (illegalContainer_dropLast hlegal)]

end Sys2Proof.Machine
end

section
/-! PROOF. What does not stop the machine (60_exceptions.md section 5), and what an error completion leaves
(60_exceptions.md section 3). -/

namespace Sys2Proof.Machine

/-! ### A dutiful host -/

/-- The action that HOST takes is the first of its program, so it lies inside the interface where all of them do, and
the rest of the program does too (R178). -/
theorem schedule_host_hostInInterface {s u : State} {a : HostAction} (hs : s.hostInInterface)
    (h : schedule s = .host a u) : a.wellFormed u.caps = true ∧ u.hostInInterface := by
  obtain ⟨as, ts, hp, rfl, -⟩ := schedule_host h
  rw [State.hostInInterface, hp] at hs
  exact List.forall_mem_cons.1 hs

theorem schedule_block_hostInInterface {s u : State} (hs : s.hostInInterface) (h : schedule s = .block u) :
    u.hostInInterface := by
  obtain ⟨-, rfl⟩ := schedule_block h
  exact hs

/-- BLOCK touches neither HOST's program nor the parameters it is held to. -/
theorem completionStep_hostInInterface {s t : State} (hs : s.hostInInterface) (h : completionStep s = .next t) :
    t.hostInInterface := by
  obtain ⟨-, -, -, hcaps, -, hpending, -, -⟩ := completionStep_frame h
  rwa [State.hostInInterface, hpending, hcaps]

/-- Settles O32, by the agent that moves: HOST's access completes, a command never stops, and a wait changes nothing. -/
theorem stepNeverStopsForADutifulHost : Obligations.StepNeverStopsForADutifulHost := by
  intro s hs
  cases hmove : schedule s with
  | host a u =>
    obtain ⟨hwf, hrest⟩ := schedule_host_hostInInterface hs hmove
    obtain ⟨t, ht⟩ := hostStep_next hwf
    exact ⟨t, (step_of_host hmove).trans ht, hostStep_hostInInterface hrest ht⟩
  | block u =>
    obtain ⟨t, ht, -⟩ := completionStepAlwaysEndsInDoneOrError u
    exact ⟨t, (step_of_block hmove).trans ht,
      completionStep_hostInInterface (schedule_block_hostInInterface hs hmove) ht⟩
  | none => exact ⟨s, step_of_none hmove, hs⟩

/-! ### STATUS under HOST's accesses -/

/-- Every action of HOST but reset and a CTRL write leaves ERR (R158). -/
theorem hostStep_err {a : HostAction} {s t : State} (ha : a ≠ .reset) (hc : ∀ w : Word, a ≠ .wrReg 0x000#32 w)
    (h : hostStep a s = .next t) : t.err = s.err := by
  obtain ⟨w, hw, -⟩ | ⟨w, -, rfl⟩ | ⟨off, b, -, rfl⟩ | ⟨hr, -⟩ | ⟨_, _, _, rfl, -⟩ := hostStep_effect h
  · exact absurd hw (hc w)
  · rfl
  · rfl
  · exact absurd hr ha
  · rfl

/-- Settles O24. -/
theorem accessesInsideTheInterfaceComplete : Obligations.AccessesInsideTheInterfaceComplete := by
  intro s a hwf
  obtain ⟨t, ht⟩ := hostStep_next hwf
  exact ⟨t, ht, fun ha hc => ⟨hostStep_phase ha hc ht, hostStep_err ha hc ht⟩⟩

/-! ### The error completion -/

theorem completionStep_of_err {s : State} {e : ErrorCode} (h : runCommand s = .err e) :
    completionStep s = .next (errorCompletion e s) := by
  rw [completionStep, h]

/-- Settles O33: the two tables hold, entry by entry, the free values they were made of. -/
theorem errorCompletionLeavesNoResult : Obligations.ErrorCompletionLeavesNoResult := fun s e he =>
  ⟨errorCompletion e s, completionStep_of_err he, rfl, rfl, rfl, rfl, rfl, rfl, tableOf_at _, tableOf_getElem _,
    read_unspecified s.draws, rfl, rfl, rfl⟩

/-- A command that raises an error, latched again in the ERROR it led to, runs on the parameters, IN and IN_LEN it ran
on before, so it ends the same way (R122, R153). -/
theorem runCommand_latch_errorCompletion (e : ErrorCode) (s : State) :
    runCommand (latchCommand s.cmdl (errorCompletion e s)) = runCommand s := by
  have hquiescent : (errorCompletion e s).quiescent := nofun
  rw [latchCommand_quiescent hquiescent]
  exact runCommand_congr rfl rfl rfl rfl

/-- Settles O34: the CTRL write latches the command of CMDL again, and its completion step reports what it did before. -/
theorem runningAgainReportsTheSameError : Obligations.RunningAgainReportsTheSameError := by
  intro s t e _ hstep hphase herr
  obtain ⟨r, -, rfl⟩ | ⟨e', he, rfl⟩ := completionStep_cases hstep
  case inl => cases hphase
  obtain rfl : e' = e := Option.some.inj herr
  have hagain : runCommand (latchCommand s.cmdl (errorCompletion e' s)) = .err e' :=
    (runCommand_latch_errorCompletion e' s).trans he
  refine ⟨latchCommand s.cmdl (errorCompletion e' s), _, ?latch, completionStep_of_err hagain, rfl, rfl⟩
  cases s.cmdl with
  | encode => rfl
  | decode => rfl

end Sys2Proof.Machine
end

section
/-! PROOF. Reset, and a command written while BUSY (70_reset_and_hazards.md sections 1 and 3). -/

namespace Sys2Proof.Machine

/-! ### The reset input and the power-up state -/

/-- FREQ and CODE_LEN with every entry 0, their reset value, read 0 through the register file (R32, R33, R170). -/
theorem regValue_zero_tables {s : State} (hfreq : s.freq = Vector.replicate 256 0#32)
    (hcodeLen : s.codeLen = Vector.replicate 256 0#8) (x : Byte) :
    regValue s (.freq x) = 0#32 ∧ regValue s (.codeLen x) = 0#32 := by
  simp [regValue, hfreq, hcodeLen]

/-- Settles O13: BLOCK moves in BUSY only, so a command in flight does not outlive the reset input, which leaves IDLE. -/
theorem resetPutsEveryRegisterAtItsResetValue : Obligations.ResetPutsEveryRegisterAtItsResetValue := by
  refine ⟨fun s => ⟨resetInput s, rfl, rfl, rfl, statusWord_of (p := .idle) (e := none) rfl rfl, rfl, rfl, rfl, rfl, rfl,
    regValue_zero_tables rfl rfl, fun k => ?buffers, rfl, fun u hu => ?abandoned, rfl⟩,
    rfl, rfl, rfl, rfl, rfl, rfl, rfl, regValue_zero_tables rfl rfl, rfl⟩
  case buffers => exact ⟨read_unspecified s.draws k, read_unspecified (s.draws + 1) k⟩
  case abandoned =>
    obtain ⟨hbusy, -⟩ := schedule_block hu
    exact nomatch hbusy

/-- Settles O14: nothing is known of the buffers, whose draws are numbered below `draws`, and STATE is IDLE. -/
theorem resetMeetsTheInvariant : Obligations.ResetMeetsTheInvariant := by
  unfold Obligations.ResetMeetsTheInvariant
  exact {
    caps := by decide
    err := ⟨nofun, nofun⟩
    inWf := unspecified_wf 0
    inWithin := unspecified_within 0 _
    outWf := unspecified_wf 1
    outWithin := unspecified_within 1 _
    outLen := Nat.zero_le _
    errorLen := nofun
    inFill := Nat.zero_lt_two
    outFill := Nat.one_lt_two }

/-! ### A command written while BUSY -/

/-- Settles O9: the write to CTRL runs the command of its word, and while BUSY every command is lost. -/
theorem commandWrittenWhileBusyIsIgnored : Obligations.CommandWrittenWhileBusyIsIgnored :=
  fun s hb => ⟨exec_busy hb, fun w => (wrReg_ctrl w s).trans (exec_busy hb (decode w))⟩

end Sys2Proof.Machine
end
